-- ==== Sys2Proof/Word.lean ====
section
/-! DEFINITION. The word types of LKO-MIXER (R1, R3): what the spec treats as bits. -/

namespace Sys2Proof

/-- One byte of sample memory (R40(b)). -/
abbrev Byte := BitVec 8

/-- A 32-bit word: a register (R10), an oscillator descriptor (R60) or a stereo frame (R42). -/
abbrev Word := BitVec 32

/-- A 64-bit command word (R62), or a 64-bit value on the host bus (R140). -/
abbrev CmdWord := BitVec 64

/-- One channel sample: 16 bits, two's complement when read as a number (R1 `SAMPLE_BITS`, R42). -/
abbrev Sample := BitVec 16

end Sys2Proof
end

