-- ==== Sys2Proof/Config.lean ====
section
/-! DEFINITION. What an implementation fixes: the parameters of R1 and the values the spec leaves open.

The fixed parameters of R1 are numerals here. The `OPEN` ones are the fields of `Config`, which `State` holds in its
field `cfg`; no step changes it. R1: "A model takes each `OPEN` value as an argument." -/

namespace Sys2Proof

/-- A range of sample addresses that real, writable memory backs: `base .. base + size - 1`.
R53 leaves "the placement and extent of real memory in the sample address space" to the platform. Two windows of one
configuration are taken as maximal: neither overlapping nor adjacent (DESIGN CHOICE, log 6). -/
structure Window where
  base : Nat
  size : Nat
deriving DecidableEq, Repr

/-- The `OPEN` parameters of R1, and the backed windows of R53 and R54. -/
structure Config where
  /-- `TABLE_CAPACITY`, the most descriptors the table holds. -/
  tableCapacity : Nat
  /-- `SAMPLE_ADDR_BITS`, the width of a sample-memory byte address. -/
  sampleAddrBits : Nat
  /-- `REG_BASE`, the host address of register offset 0. -/
  regBase : Nat
  /-- `SINE_TABLE`: entry `p` is the 16-bit sample value at `p` degrees (R102). -/
  sine : Vector Sample 360
  /-- The writable memory of the sample space (R53, R54). -/
  windows : List Window
deriving DecidableEq, Repr

/-- R1 `FRAME_BYTES`: two channels of two bytes. -/
def frameBytes : Nat := 4

/-- R1 `PHASE_MOD`: degrees per cycle. -/
def phaseMod : Nat := 360

/-- The sine table of an implementation of which nothing is known (R102, I1). DESIGN CHOICE (log 4), safe: it has no
body, so no proof can use a value of it. -/
opaque Config.sineTable : Vector Sample 360

/-- What a byte of sample memory holds at launch, at each address (R180 "its contents are unspecified at launch", I10
"any value"). DESIGN CHOICE (log 5), safe: it has no body. -/
opaque Config.launchByte : Nat → Byte

/-- The configuration of `State.reset`. DESIGN CHOICE (log 3, log 6), unsafe for a claim about that one state: capacity
256 (the value of the spec's test vectors), 32 address bits (the spec's default), `REG_BASE` 0, and memory over the whole
sample space. A claim about every state, or about `State.resetWith c` for every `c`, does not rest on it. -/
def Config.standard : Config where
  tableCapacity := 256
  sampleAddrBits := 32
  regBase := 0
  sine := Config.sineTable
  windows := [⟨0, 2 ^ 32⟩]

/-- The number of sample addresses, `2^SAMPLE_ADDR_BITS` (R40(b)). -/
def Config.sampleSpace (c : Config) : Nat := 2 ^ c.sampleAddrBits

/-- The host address of register offset `o` (R10, R40(a)). -/
def Config.hostAddress (c : Config) (o : Nat) : Nat := c.regBase + o

end Sys2Proof
end

