-- ==== Sys2Proof/Syntax.lean ====
section
/-! DEFINITION. What can be asked of the block: the instructions of spec/opcode_table.json, the two ports they come in by,
and the forms of a host register access (R140). -/

namespace Sys2Proof

/-- The block's instructions (R63). The four commands carry the whole operand field `ARG` of their word; what each makes
of it is R64 (`Machine/Operands.lean`). -/
inductive Instr where
  /-- ADD_OSC (R90). -/
  | addOsc (arg : Word)
  /-- REMOVE_FREQ (R91). -/
  | removeFreq (arg : Word)
  /-- ARM (R120). -/
  | arm (arg : Word)
  /-- STOP (R121). -/
  | stop (arg : Word)
  /-- TICK, the event of the period timer (R125, R68). -/
  | tick
deriving DecidableEq, Repr

/-- Who issues an instruction (R63, column "who issues it"). -/
inductive Source where
  /-- A host master, by a 64-bit write to CMD (R62). -/
  | host
  /-- The period timer, by its internal event (R68). -/
  | timer
deriving DecidableEq, Repr

/-- A host register access (R140) at host address `addr`, which is `REG_BASE + offset` (R10). -/
inductive Access where
  | rd32 (addr : Nat)
  | wr32 (addr : Nat) (v : Word)
  | rd64 (addr : Nat)
  | wr64 (addr : Nat) (v : CmdWord)
  /-- An access of any other width, a burst included, read or write: R140 "not supported", always BUSERROR (R141(a)). -/
  | otherWidth (bits : Nat) (addr : Nat)
deriving DecidableEq, Repr

/-- The width of an access in bits. -/
def Access.bits : Access → Nat
  | .rd32 _ => 32
  | .wr32 _ _ => 32
  | .rd64 _ => 64
  | .wr64 _ _ => 64
  | .otherWidth b _ => b

/-- The host address of an access. -/
def Access.addr : Access → Nat
  | .rd32 a => a
  | .wr32 a _ => a
  | .rd64 a => a
  | .wr64 a _ => a
  | .otherWidth _ a => a

end Sys2Proof
end

