-- ==== Sys2Proof/WellFormed.lean ====
section
/-! DEFINITION. Which terms the spec admits: an instruction at a port, a configuration, an access form. -/

namespace Sys2Proof

/-- An instruction is well formed at the port that may issue it (R63): the host issues the four commands, the period timer
issues TICK. Every operand word is legal (R61: "Every 32-bit word is a well-formed descriptor"; R64: "Any 16-bit key is
legal"; ARM and STOP ignore `ARG`), so the operand adds no check. -/
def Instr.wf : Source → Instr → Bool
  | .host, .addOsc _ => true
  | .host, .removeFreq _ => true
  | .host, .arm _ => true
  | .host, .stop _ => true
  | .host, .tick => false
  | .timer, .addOsc _ => false
  | .timer, .removeFreq _ => false
  | .timer, .arm _ => false
  | .timer, .stop _ => false
  | .timer, .tick => true

/-- The one access form that needs a check: an "other" width is neither 32 nor 64 (R140, R141(a)). -/
def Access.wf : Access → Bool
  | .rd32 _ => true
  | .wr32 _ _ => true
  | .rd64 _ => true
  | .wr64 _ _ => true
  | .otherWidth b _ => b != 32 && b != 64

/-- Windows in rising order with at least one byte between two of them, so that each is maximal (log 6). -/
def windowsApart : List Window → Bool
  | [] => true
  | [_] => true
  | v :: w :: ws => decide (v.base + v.size < w.base) && windowsApart (w :: ws)

/-- R1's ranges: 1 ≤ `TABLE_CAPACITY` ≤ 65536, 1 ≤ `SAMPLE_ADDR_BITS` ≤ 32; no window of memory outside the sample
address space (R40(b)), and the windows apart. -/
def Config.wf (c : Config) : Bool :=
  decide (1 ≤ c.tableCapacity) && decide (c.tableCapacity ≤ 65536) &&
    decide (1 ≤ c.sampleAddrBits) && decide (c.sampleAddrBits ≤ 32) &&
    c.windows.all (fun w => decide (w.base + w.size ≤ c.sampleSpace)) && windowsApart c.windows

end Sys2Proof
end

