-- ==== Sys2Proof/Decode.lean ====
section
/-! DEFINITION. The decoder of the two ports (R62 to R65, R68), total on every word and rejecting by name; the encoder;
and the opcode map of R63 as mask and match rows. -/

namespace Sys2Proof

/-- Why a word is no instruction at a port. At the host port every rejection is the command result INVALID_COMMAND (R65);
it is no fault and the block goes on. -/
inductive DecodeError where
  /-- `RSVD ≠ 0` (R65). -/
  | reservedBits
  /-- `OP` is 0x00, 0x05..0x7F or 0x81..0xFF (R63). -/
  | unassignedOp (op : Byte)
  /-- The TICK code 0x80 written by a host (R65, R68). -/
  | tickFromHost
  /-- A word other than the TICK event at the timer's port (R68). -/
  | notTheTickEvent
deriving DecidableEq, Repr

/-- `RSVD = w[63:40]` (R62). -/
def rsvdField (w : CmdWord) : BitVec 24 := w.extractLsb' 40 24

/-- `OP = w[39:32]` (R62). -/
def opField (w : CmdWord) : Byte := w.extractLsb' 32 8

/-- `ARG = w[31:0]` (R62). -/
def argField (w : CmdWord) : Word := w.extractLsb' 0 32

/-- The word of the TICK event (R68). -/
def tickEventWord : CmdWord := 0x0000008000000000#64

/-- R62's decoding of a word written to CMD: the reserved bits first (R163(b)), then `OP`. -/
def decodeHost (w : CmdWord) : Except DecodeError Instr :=
  if rsvdField w ≠ 0#24 then .error .reservedBits
  else if opField w = 0x01#8 then .ok (.addOsc (argField w))
  else if opField w = 0x02#8 then .ok (.removeFreq (argField w))
  else if opField w = 0x03#8 then .ok (.arm (argField w))
  else if opField w = 0x04#8 then .ok (.stop (argField w))
  else if opField w = 0x80#8 then .error .tickFromHost
  else .error (.unassignedOp (opField w))

/-- The timer's port knows one word, the TICK event (R68). -/
def decodeTimer (w : CmdWord) : Except DecodeError Instr :=
  if w = tickEventWord then .ok .tick else .error .notTheTickEvent

/-- The decoder. The same word means different things at the two ports (R65: 0x80 written by a host is illegal). -/
def decode : Source → CmdWord → Except DecodeError Instr
  | .host, w => decodeHost w
  | .timer, w => decodeTimer w

/-- `{RSVD = 0, OP, ARG}` (R62). -/
def commandWord (op : Byte) (arg : Word) : CmdWord := BitVec.ofNat 64 (2 ^ 32 * op.toNat + arg.toNat)

/-- The word of an instruction, from the opcode map of R63 and R68. -/
def encode : Instr → CmdWord
  | .addOsc arg => commandWord 0x01#8 arg
  | .removeFreq arg => commandWord 0x02#8 arg
  | .arm arg => commandWord 0x03#8 arg
  | .stop arg => commandWord 0x04#8 arg
  | .tick => tickEventWord

/-- A row of R63's opcode map: the words `w` with `w &&& mask = pattern` at that port. -/
structure OpcodeRow where
  mnemonic : String
  source : Source
  mask : CmdWord
  pattern : CmdWord
deriving DecidableEq, Repr

/-- The opcode map (R63, R68, R90, R91, R120, R121). -/
def opcodeRows : List OpcodeRow :=
  [⟨"ADD_OSC", .host, 0xFFFFFFFF00000000#64, 0x0000000100000000#64⟩,
   ⟨"REMOVE_FREQ", .host, 0xFFFFFFFF00000000#64, 0x0000000200000000#64⟩,
   ⟨"ARM", .host, 0xFFFFFFFF00000000#64, 0x0000000300000000#64⟩,
   ⟨"STOP", .host, 0xFFFFFFFF00000000#64, 0x0000000400000000#64⟩,
   ⟨"TICK", .timer, 0xFFFFFFFFFFFFFFFF#64, 0x0000008000000000#64⟩]

/-- The `n` bytes of a number, the least significant first (R42). -/
def littleEndianBytes : Nat → Nat → List Byte
  | 0, _ => []
  | n + 1, v => BitVec.ofNat 8 v :: littleEndianBytes n (v / 256)

/-- The number that bytes stand for, the first least significant (R42). -/
def ofLittleEndianBytes : List Byte → Nat
  | [] => 0
  | b :: bs => b.toNat + 256 * ofLittleEndianBytes bs

/-- The command word that eight bytes at offsets 0x00000 to 0x00007 of CMD make (R42 "CMD": bits [31:0] at offset 0x00000,
bits [63:32] at offset 0x00004). -/
def commandOfBytes (bs : List Byte) : CmdWord := BitVec.ofNat 64 (ofLittleEndianBytes bs)

/-- The word of a table row: its bits, with zeros above, laid out as CMD's bytes. -/
def tableWord (nbits w : Nat) : CmdWord := commandOfBytes (littleEndianBytes 8 (w % 2 ^ nbits))

/-- What the decoder reads from a word of the opcode table: the host's port first, then the timer's, since the table
lists the timer's event beside the host's commands (R68 "For the opcode table only"; DESIGN CHOICE, log 25). A word that
neither port knows, or a row of more than 64 bits (R66), is none. -/
def decodeTableWord (nbits w : Nat) : Option Instr :=
  if 64 < nbits then none
  else
    match decode .host (tableWord nbits w) with
    | .ok i => some i
    | .error _ =>
      match decode .timer (tableWord nbits w) with
      | .ok i => some i
      | .error _ => none

end Sys2Proof
end

