-- ==== Sys2Proof/Machine/State.lean ====
section
/-! DEFINITION. The state of the block as plain data (10_state.md), the reasons a step can stop, and the state after reset
(R180). -/

namespace Sys2Proof.Machine

/-- The result of a command (R12 RESULT, R160). Code 3 is "reserved, never produced" and has no constructor (log 18). -/
inductive CmdResult where
  | ok
  | outOfMemory
  | invalidCommand
deriving DecidableEq, Repr

/-- `S.state` (R24). -/
inductive SchedState where
  | idle
  | armed
  | stopped
  | halted
deriving DecidableEq, Repr

/-- The four stream parameters: the registers SAMPLE_RATE, PERIOD_FRAMES, BUFFER_BYTES and BUFFER_BASE (R14 to R17), and
their latched copies (R23). -/
structure StreamParams where
  rate : Word
  period : Word
  bytes : Word
  base : Word
deriving DecidableEq, Repr

/-- The response that ends a host access (R140). -/
inductive Response where
  /-- `OKAY(value)` of a 32-bit read (R143). -/
  | okayValue32 (v : Word)
  /-- `OKAY(value)` of a 64-bit read (R142). -/
  | okayValue64 (v : CmdWord)
  /-- `OKAY` of a 32-bit write (R143). -/
  | okay
  /-- `OKAY(result)` of a CMD write (R142). -/
  | okayResult (r : CmdResult)
  /-- `BUSERROR` (R141). -/
  | busError
deriving DecidableEq, Repr

/-- One step that the outside world asks for (R2, R44). -/
inductive Input where
  /-- A register access of host master `master` (R2(a)); the tag is the environment's (R172, log 10). -/
  | host (master : Nat) (a : Access)
  /-- TICK, delivered by the period timer (R2(b), R123). -/
  | timer
  /-- The consumer's `MemRead(addr, n)` (R2(c), R5). -/
  | consumer (addr n : Nat)
  /-- Reset (R180; log 15). -/
  | reset
deriving DecidableEq, Repr

/-- What a step shows the outside world besides its events: a response to a master, or bytes to the consumer. -/
inductive Output where
  | response (master : Nat) (r : Response)
  | consumed (addr : Nat) (bytes : List Byte)
deriving DecidableEq, Repr

/-- An entry of the event history (10_state.md section 7): a `MemWrite(addr, n, v)` or a `PERIOD_ELAPSED` (R166). -/
inductive HistoryEvent where
  | sampleWrite (addr n : Nat) (v : Word)
  | periodElapsed
deriving DecidableEq, Repr

/-- Sample memory (R40(b)): its written bytes, addresses strictly rising. An address that is not listed has no value
(I10: its contents are unspecified; log 5). -/
abbrev Memory := List Host.Cell

/-- The state of one block (10_state.md section 7), with its parameters and the steps still to come. -/
structure State where
  /-- The implementation parameters (R1); no step changes them. -/
  cfg : Config
  /-- The waveform table `T`, oldest entry first; `T.count` is its length (R22). -/
  table : List Word
  /-- SAMPLE_RATE, PERIOD_FRAMES, BUFFER_BYTES, BUFFER_BASE (R14 to R17). -/
  regs : StreamParams
  /-- `S.lat_rate`, `S.lat_period`, `S.lat_bytes`, `S.lat_base` (R23). -/
  lat : StreamParams
  /-- `S.state` (R24). -/
  sched : SchedState
  /-- `S.cursor` (R24; 32 bits, log 17). -/
  cursor : Word
  /-- `S.period_count` (R20, R24). -/
  periodCount : Word
  /-- `S.result` (R12, R24). -/
  result : CmdResult
  /-- Sample memory (R40(b)). -/
  mem : Memory
  /-- The event history, oldest first (10_state.md section 7). -/
  history : List HistoryEvent
  /-- The model's own: the steps still to come, in their total order (R44; log 1). -/
  inputs : List Input
  /-- The model's own: what masters and consumer have been given, oldest first (log 11). -/
  outputs : List Output
deriving DecidableEq, Repr

/-- A fault of a step. No step that the spec describes ends in one: its input is an address that does not exist (log 7). -/
inductive Fault where
  /-- A sample-memory access past the last sample address, `2^SAMPLE_ADDR_BITS - 1` (R40(b)). Raised only by a consumer's
  read there, which is no well-formed input (`Input.wf`). Safe (log 7). -/
  | sampleAddressOutside
deriving DecidableEq, Repr

/-- A refusal: the model has no meaning for the input (R6). -/
inductive Refusal where
  /-- An instruction whose arm is not written. No arm answers it. Safe. -/
  | notModelled (mnemonic : String)
  /-- A stream whose region `cfg.windows` does not back: R54 "A model refuses a launch whose region is not backed by
  writable memory" (I15, I18). Raised by ARM where it would start such a stream, and by TICK in a state ARMED over such a
  region. Safe (log 6). -/
  | regionNotBacked
  /-- A fill with `S.lat_rate = 0`, where R101 divides by it: a launch state that ARM's check makes unreachable (R182,
  I15 `refuse`). Raised by TICK. Safe (log 8). -/
  | zeroRateLaunch
deriving DecidableEq, Repr

/-- All four stream parameters zero, their reset value (R180). -/
def StreamParams.zero : StreamParams := ⟨0, 0, 0, 0⟩

/-- The state after reset (R180) of a block with parameters `c`, with no step asked for yet. -/
def State.resetWith (c : Config) : State where
  cfg := c
  table := []
  regs := StreamParams.zero
  lat := StreamParams.zero
  sched := .idle
  cursor := 0
  periodCount := 0
  result := .ok
  mem := []
  history := []
  inputs := []
  outputs := []

/-- The state after reset (R180), for the parameters of `Config.standard` (log 3). -/
def State.reset : State := State.resetWith Config.standard

end Sys2Proof.Machine
end

