-- ==== Sys2Proof/Machine/Ops.lean ====
section
/-! DEFINITION. The named operations over the state and over sample memory: field updates, little-endian memory access
(R42), the fatal path (R162), reset of the block (R180), and the responses that end a step (R5, R140). -/

namespace Sys2Proof.Machine

/-! ## Updates of one field -/

/-- Publishes a new waveform table (R22). -/
def State.setTable (s : State) (t : List Word) : State := { s with table := t }

/-- Sets the four configuration registers (R14 to R17). -/
def State.setRegs (s : State) (p : StreamParams) : State := { s with regs := p }

/-- Sets the latched parameters (R23). -/
def State.setLat (s : State) (p : StreamParams) : State := { s with lat := p }

/-- Sets `S.state` (R24). -/
def State.setSched (s : State) (x : SchedState) : State := { s with sched := x }

/-- Sets `S.cursor` (R24). -/
def State.setCursor (s : State) (c : Word) : State := { s with cursor := c }

/-- Sets `S.period_count` (R24). -/
def State.setPeriodCount (s : State) (n : Word) : State := { s with periodCount := n }

/-- Sets `S.result` (R24). -/
def State.setResult (s : State) (r : CmdResult) : State := { s with result := r }

/-- Sets sample memory. -/
def State.setMem (s : State) (m : Memory) : State := { s with mem := m }

/-- Appends to the event history (10_state.md section 7). -/
def State.record (s : State) (e : HistoryEvent) : State := { s with history := s.history ++ [e] }

/-- Sets the steps still to come. -/
def State.setInputs (s : State) (l : List Input) : State := { s with inputs := l }

/-- Shows something to the outside world. -/
def State.output (s : State) (o : Output) : State := { s with outputs := s.outputs ++ [o] }

/-- `respond r` (R5): ends master `m`'s access with response `r`. -/
def State.respond (s : State) (m : Nat) (r : Response) : State := s.output (.response m r)

/-! ## Sample memory -/

/-- The byte at an address; `none` where nothing has been written (I10). -/
def Memory.read : Memory → Nat → Option Byte
  | [], _ => none
  | (a, b) :: m, x => if x = a then some b else if x < a then none else Memory.read m x

/-- Writes one byte, keeping the addresses strictly rising. -/
def Memory.write : Memory → Nat → Byte → Memory
  | [], x, v => [(x, v)]
  | (a, b) :: m, x, v =>
    if x < a then (x, v) :: (a, b) :: m
    else if x = a then (x, v) :: m
    else (a, b) :: Memory.write m x v

/-- Writes bytes at consecutive addresses. -/
def Memory.writeBytes : Memory → Nat → List Byte → Memory
  | m, _, [] => m
  | m, a, b :: bs => Memory.writeBytes (Memory.write m a b) (a + 1) bs

/-- Every listed address is above `x`. -/
def Memory.allAbove (x : Nat) : Memory → Bool
  | [] => true
  | (a, _) :: m => decide (x < a) && Memory.allAbove x m

/-- The canonical form: addresses strictly rising. Every listed byte differs from what an unlisted address reads as,
since that is no value at all (log 5). -/
def Memory.wf : Memory → Bool
  | [] => true
  | (a, _) :: m => Memory.allAbove a m && Memory.wf m

/-- Every listed address is below `n`. -/
def Memory.below (n : Nat) : Memory → Bool
  | [] => true
  | (a, _) :: m => decide (a < n) && Memory.below n m

/-- `MemWrite(addr, n, v)` (R5, R42): byte `v[8k+7:8k]` to address `addr + k`, recorded in the event history. -/
def State.memWrite (s : State) (addr n : Nat) (v : Word) : State :=
  (s.setMem (Memory.writeBytes s.mem addr (littleEndianBytes n v.toNat))).record (.sampleWrite addr n v)

/-- What a reader of sample memory sees at an address (R47): the latest byte written there, "or its launch value if none",
which is a free value of the address (I10; log 5). -/
def State.sampleByte (s : State) (a : Nat) : Byte :=
  match Memory.read s.mem a with
  | some b => b
  | none => Config.launchByte a

/-- `MemRead(addr, n)` (R5): the `n` bytes from `addr` on, in ascending order. -/
def State.memRead (s : State) (addr : Nat) : Nat → List Byte
  | 0 => []
  | n + 1 => s.sampleByte addr :: s.memRead (addr + 1) n

/-- The bytes `lo .. lo + len - 1` are addresses of the sample space (R40(b)). -/
def inSampleSpace (c : Config) (lo len : Nat) : Bool := decide (lo + len ≤ c.sampleSpace)

/-- The bytes `lo .. lo + len - 1` are addresses backed by writable memory (R54). Windows are maximal, so one holds them
all. -/
def backed (c : Config) (lo len : Nat) : Bool :=
  decide (len = 0) ||
    (inSampleSpace c lo len && c.windows.any fun w => decide (w.base ≤ lo ∧ lo + len ≤ w.base + w.size))

/-! ## The fatal path and reset -/

/-- `raise InternalConsistencyViolation` (R162), the block's one exception: the scheduler halts. STATUS then shows
STATE = 3, RUNNING = 0 and FATAL = 1. Nothing else changes; there is no vector, no saved state and no return (R165, R167):
only reset leaves HALTED. -/
def raiseInternalConsistencyViolation (s : State) : State := s.setSched .halted

/-- Reset (R180): every element of the block's state at its reset value. Sample memory is unchanged. The parameters, the
steps still to come and the log of outputs are no state of the block (log 15). -/
def resetBlock (s : State) : State :=
  { State.resetWith s.cfg with mem := s.mem, inputs := s.inputs, outputs := s.outputs }

/-! ## Outcomes -/

/-- Goes on with `f` where a first part answered a next state. -/
def andThen (o : Host.Outcome State Fault Refusal) (f : State → State) : Host.Outcome State Fault Refusal :=
  match o with
  | .next s => .next (f s)
  | .fault r => .fault r
  | .refused r => .refused r

/-- Ends a command (R62): its result goes to `S.result`. -/
def finishCommand (r : CmdResult) (s : State) : Host.Outcome State Fault Refusal := .next (s.setResult r)

end Sys2Proof.Machine
end

