-- ==== Sys2Proof/Machine/Codec.lean ====
section
/-! DEFINITION. The waveform codec (40_codec.md): pure total functions on descriptors (R60, R80 to R84). -/

namespace Sys2Proof.Machine

/-- `trunc_N(v) = v mod 2^N` of any integer (R4). -/
def trunc (n : Nat) (v : Int) : Nat := (v % (2 ^ n : Nat)).toNat

/-- `amp(w) = w[6:0]` (R81). -/
def ampOf (w : Word) : BitVec 7 := w.extractLsb' 0 7

/-- `phase(w) = w[15:7]` (R81). -/
def phaseOf (w : Word) : BitVec 9 := w.extractLsb' 7 9

/-- `freq(w) = w[31:16]` (R81). -/
def freqOf (w : Word) : BitVec 16 := w.extractLsb' 16 16

/-- `encode(a, p, f) = trunc_7(a) + 2^7 * trunc_9(p) + 2^16 * trunc_16(f)` (R80), of any integers. -/
def encodeDescriptor (a p f : Int) : Word :=
  BitVec.ofNat 32 (trunc 7 a + 2 ^ 7 * trunc 9 p + 2 ^ 16 * trunc 16 f)

/-- `decode(w)` (R81), as three numbers. -/
def decodeDescriptor (w : Word) : Nat × Nat × Nat := ((ampOf w).toNat, (phaseOf w).toNat, (freqOf w).toNat)

/-- `setAmplitude(w, a)` (R82). -/
def setAmplitude (w : Word) (a : Int) : Word := encodeDescriptor a (phaseOf w).toNat (freqOf w).toNat

/-- `setPhase(w, p)` (R83). -/
def setPhase (w : Word) (p : Int) : Word := encodeDescriptor (ampOf w).toNat p (freqOf w).toNat

/-- `setFrequency(w, f)` (R84). -/
def setFrequency (w : Word) (f : Int) : Word := encodeDescriptor (ampOf w).toNat (phaseOf w).toNat f

end Sys2Proof.Machine
end

