-- ==== Sys2Proof/Machine/Operands.lean ====
section
/-! DEFINITION. What each instruction takes as its operands: from `ARG` (R64), from the configuration registers (R120) and
from the latched parameters (R107, R124, R125). -/

namespace Sys2Proof.Machine

/-- ADD_OSC's operand: `ARG` verbatim, unchecked and unmasked (R64). -/
def descriptorOperand (arg : Word) : Word := arg

/-- REMOVE_FREQ's operand: `ARG[15:0]`; `ARG[31:16]` is ignored (R64). -/
def keyOperand (arg : Word) : BitVec 16 := arg.extractLsb' 0 16

/-- ARM's parameter checks (R120): a rate, a period, a 4-aligned base, and a region inside the sample address space. -/
def armParamsOk (c : Config) (p : StreamParams) : Bool :=
  decide (p.rate ≠ 0) && decide (p.period ≠ 0) && decide (p.base.extractLsb' 0 2 = 0#2) &&
    decide (p.base.toNat + p.bytes.toNat ≤ c.sampleSpace)

/-- R54's premise for a stream with parameters `p`: every byte of `[base, base + bytes)` is writable memory. -/
def regionBacked (c : Config) (p : StreamParams) : Bool := backed c p.base.toNat p.bytes.toNat

/-- The period bytes `PB = S.lat_period × FRAME_BYTES`, exact (R124). -/
def periodBytes (s : State) : Nat := s.lat.period.toNat * frameBytes

/-- The address MIX fills from: `S.lat_base + S.cursor` (R107). -/
def mixAddress (s : State) : Nat := s.lat.base.toNat + s.cursor.toNat

/-- The cursor invariant that a tick checks first: `0 ≤ S.cursor < S.lat_bytes` (R28, R125). -/
def cursorInRegion (s : State) : Bool := decide (s.cursor.toNat < s.lat.bytes.toNat)

/-- The fill condition: `S.lat_bytes - S.cursor ≥ PB` (R125). -/
def periodFits (s : State) : Bool := decide (periodBytes s ≤ s.lat.bytes.toNat - s.cursor.toNat)

end Sys2Proof.Machine
end

