-- ==== Sys2Proof/Machine/Flags.lean ====
section
/-! DEFINITION. The condition code and the status flags: the fields of STATUS (R12) and their codes (R143, R160). -/

namespace Sys2Proof.Machine

/-- The code of a result: 0 = OK, 1 = OUT_OF_MEMORY, 2 = INVALID_COMMAND (R12, R160). -/
def CmdResult.code : CmdResult → BitVec 2
  | .ok => 0#2
  | .outOfMemory => 1#2
  | .invalidCommand => 2#2

/-- The code of a scheduler state: 0 = IDLE, 1 = ARMED, 2 = STOPPED, 3 = HALTED (R12, R143). -/
def SchedState.code : SchedState → BitVec 2
  | .idle => 0#2
  | .armed => 1#2
  | .stopped => 2#2
  | .halted => 3#2

/-- RUNNING: 1 exactly when STATE = ARMED (R12). -/
def SchedState.running : SchedState → BitVec 1
  | .idle => 0#1
  | .armed => 1#1
  | .stopped => 0#1
  | .halted => 0#1

/-- FATAL: 1 exactly when STATE = HALTED (R12). -/
def SchedState.fatal : SchedState → BitVec 1
  | .idle => 0#1
  | .armed => 0#1
  | .stopped => 0#1
  | .halted => 1#1

/-- STATUS (R12): FATAL at bit 5, RUNNING at bit 4, STATE at [3:2], RESULT at [1:0], as the sum of R143. -/
def statusWord (s : State) : Word :=
  BitVec.ofNat 32
    (s.result.code.toNat + 4 * s.sched.code.toNat + 16 * s.sched.running.toNat + 32 * s.sched.fatal.toNat)

end Sys2Proof.Machine
end

