-- ==== Sys2Proof/Machine/Table.lean ====
section
/-! DEFINITION. The waveform table commands (41_table_commands.md): ADD_OSC and REMOVE_FREQ. Both are accepted in every
scheduler state. -/

namespace Sys2Proof.Machine

/-- R90: a full table gives OUT_OF_MEMORY and stays as it is; otherwise the descriptor is appended last. -/
def execAddOsc (arg : Word) (s : State) : Host.Outcome State Fault Refusal :=
  if s.table.length = s.cfg.tableCapacity then finishCommand .outOfMemory s
  else finishCommand .ok (s.setTable (s.table ++ [descriptorOperand arg]))

/-- The entries whose frequency field differs from the key, in their order (R91). -/
def survivors (key : BitVec 16) (t : List Word) : List Word := t.filter fun e => freqOf e != key

/-- R91: removes every entry whose frequency field is the key; always OK. -/
def execRemoveFreq (arg : Word) (s : State) : Host.Outcome State Fault Refusal :=
  finishCommand .ok (s.setTable (survivors (keyOperand arg) s.table))

end Sys2Proof.Machine
end

