-- ==== Sys2Proof/Machine/Mixer.lean ====
section
/-! DEFINITION. The mixer (42_mixer.md), the datapath that only a TICK starts. -/

namespace Sys2Proof.Machine

/-- `step(e, r) = (360 * freq(e)) div r` (R101), exact floor division. -/
def phaseStep (e : Word) (r : Nat) : Nat := phaseMod * (freqOf e).toNat / r

/-- `SINE_TABLE[p mod 360]` as a signed integer (R102). -/
def sineAt (c : Config) (p : Nat) : Int := (c.sine.get ⟨p % 360, Nat.mod_lt _ (by decide)⟩).toInt

/-- `contrib(e) = SINE_TABLE[phase(e) mod 360]` (R102). The amplitude does not enter. -/
def contrib (c : Config) (e : Word) : Int := sineAt c (phaseOf e).toNat

/-- The sum of a frame (R103), exact (log 19). -/
def sumContrib (c : Config) : List Word → Int
  | [] => 0
  | e :: t => contrib c e + sumContrib c t

/-- The value of a frame (R104): 0 for an empty table, else the mean truncated toward zero. -/
def frameValue (c : Config) (t : List Word) : Int :=
  if t.length = 0 then 0 else Int.tdiv (sumContrib c t) t.length

/-- The phase write-back of one entry (R105). -/
def advancePhase (r : Nat) (e : Word) : Word :=
  setPhase e (((phaseOf e).toNat + phaseStep e r) % phaseMod : Nat)

/-- The 32-bit word of a frame: `trunc_16(s)` in both channels (R106). -/
def frameWord (v : Int) : Word := BitVec.ofNat 32 (trunc 16 v + 2 ^ 16 * trunc 16 v)

/-- One frame of MIX at address `a` with rate `r` (R107): the value from the phases before the advance, the write-back, the
frame write. -/
def mixFrame (a r : Nat) (s : State) : State :=
  (s.setTable (s.table.map (advancePhase r))).memWrite a frameBytes (frameWord (frameValue s.cfg s.table))

/-- `MIX(a, n, r)` (R107): `n` frames at ascending addresses. -/
def mix (a r : Nat) : Nat → State → State
  | 0, s => s
  | n + 1, s => mix (a + frameBytes) r n (mixFrame a r s)

/-- The fill of a tick: MIX over the latched period at `S.lat_base + S.cursor` (R125), where R107's operand `r ≥ 1` holds. A
latched rate of 0 is a launch state that no run reaches (R182, I15; log 8). -/
def fillPeriod (s : State) : Host.Outcome State Fault Refusal :=
  if s.lat.rate = 0 then .refused .zeroRateLaunch
  else .next (mix (mixAddress s) s.lat.rate.toNat s.lat.period.toNat s)

end Sys2Proof.Machine
end

