-- ==== Sys2Proof/Machine/Scheduler.lean ====
section
/-! DEFINITION. The buffer scheduler (43_scheduler.md): ARM, STOP and TICK. -/

namespace Sys2Proof.Machine

/-- The effect of an accepted ARM (R120): latch the four registers, cursor and period count 0, ARMED. -/
def armStream (s : State) : State :=
  (((s.setLat s.regs).setCursor 0).setPeriodCount 0).setSched .armed

/-- R120: INVALID_COMMAND when ARMED or HALTED or when a parameter check fails; otherwise the scheduler is bound to the
stream the registers describe. `ARG` is ignored (R64). Where the command would start a stream over a region that is not
backed, the model refuses that launch (R54, I18; log 6). -/
def execArm (_arg : Word) (s : State) : Host.Outcome State Fault Refusal :=
  if s.sched = .armed ∨ s.sched = .halted then finishCommand .invalidCommand s
  else if armParamsOk s.cfg s.regs = false then finishCommand .invalidCommand s
  else if regionBacked s.cfg s.regs = false then .refused .regionNotBacked
  else finishCommand .ok (armStream s)

/-- R121: ARMED becomes STOPPED, any other state stays; always OK. `ARG` is ignored (R64). -/
def execStop (_arg : Word) (s : State) : Host.Outcome State Fault Refusal :=
  finishCommand .ok (if s.sched = .armed then s.setSched .stopped else s)

/-- The cursor after a tick (R126): one period on, exact, and to 0 when that reaches or exceeds the region. -/
def nextCursor (s : State) : Word :=
  if s.lat.bytes.toNat ≤ s.cursor.toNat + periodBytes s then 0
  else BitVec.ofNat 32 (s.cursor.toNat + periodBytes s)

/-- `ADVANCE_AND_NOTIFY()` (R126): the cursor, PERIOD_COUNT modulo 2^32, then PERIOD_ELAPSED (R46, R166). -/
def advanceAndNotify (s : State) : State :=
  ((s.setCursor (nextCursor s)).setPeriodCount (s.periodCount + 1)).record .periodElapsed

/-- R125, its checks in R163(e)'s order: nothing unless ARMED; the fatal path if the cursor invariant fails; then fill, or
skip where less than a period is left; then advance and notify. A state ARMED over a region that is not backed is a launch
the model refuses (R54, R182, I15; log 6). -/
def execTick (s : State) : Host.Outcome State Fault Refusal :=
  if s.sched ≠ .armed then .next s
  else if regionBacked s.cfg s.lat = false then .refused .regionNotBacked
  else if cursorInRegion s = false then .next (raiseInternalConsistencyViolation s)
  else if periodFits s = false then .next (advanceAndNotify s)
  else andThen (fillPeriod s) advanceAndNotify

end Sys2Proof.Machine
end

