-- ==== Sys2Proof/Machine/Dispatch.lean ====
section
/-! DEFINITION. One arm per instruction of spec/opcode_table.json. -/

namespace Sys2Proof.Machine

def exec (i : Instr) (s : State) : Host.Outcome State Fault Refusal :=
  match i with
  | .addOsc arg => Sys2Proof.Machine.execAddOsc arg s
  | .removeFreq arg => Sys2Proof.Machine.execRemoveFreq arg s
  | .arm arg => Sys2Proof.Machine.execArm arg s
  | .stop arg => Sys2Proof.Machine.execStop arg s
  | .tick => Sys2Proof.Machine.execTick s

end Sys2Proof.Machine
end

