-- ==== Sys2Proof/Machine/Registers.lean ====
section
/-! DEFINITION. The register map (R10) and what 32-bit reads and writes of it do (R143 to R145). -/

namespace Sys2Proof.Machine

/-- The 32-bit registers of the map (R10), the TABLE window (R26) and the reserved offsets (R145). CMD is no 32-bit
register (R25). -/
inductive Reg where
  | status
  | tableCount
  | sampleRate
  | periodFrames
  | bufferBytes
  | bufferBase
  | cursor
  | position
  | periodCount
  | tableCap
  | tableEntry (i : Nat)
  | reserved (o : Nat)
deriving DecidableEq, Repr

/-- The offset of CMD (R10). -/
def cmdOffset : Nat := 0x00000

/-- The offset of a register (R10). -/
def Reg.offset : Reg → Nat
  | .status => 0x00008
  | .tableCount => 0x0000C
  | .sampleRate => 0x00010
  | .periodFrames => 0x00014
  | .bufferBytes => 0x00018
  | .bufferBase => 0x0001C
  | .cursor => 0x00020
  | .position => 0x00024
  | .periodCount => 0x00028
  | .tableCap => 0x0002C
  | .tableEntry i => 0x40000 + 4 * i
  | .reserved o => o

/-- The register at a 4-aligned offset other than CMD's (R10, R143). The TABLE window starts at 0x40000 (R26). -/
def regAt (c : Config) (o : Nat) : Reg :=
  if o = 0x00008 then .status
  else if o = 0x0000C then .tableCount
  else if o = 0x00010 then .sampleRate
  else if o = 0x00014 then .periodFrames
  else if o = 0x00018 then .bufferBytes
  else if o = 0x0001C then .bufferBase
  else if o = 0x00020 then .cursor
  else if o = 0x00024 then .position
  else if o = 0x00028 then .periodCount
  else if o = 0x0002C then .tableCap
  else if 0x40000 ≤ o ∧ (o - 0x40000) / 4 < c.tableCapacity then .tableEntry ((o - 0x40000) / 4)
  else .reserved o

/-- What a 32-bit read returns (R143). It changes nothing. -/
def readReg (s : State) : Reg → Word
  | .status => statusWord s
  | .tableCount => BitVec.ofNat 32 s.table.length
  | .sampleRate => s.regs.rate
  | .periodFrames => s.regs.period
  | .bufferBytes => s.regs.bytes
  | .bufferBase => s.regs.base
  | .cursor => s.cursor
  | .position => BitVec.ofNat 32 (s.cursor.toNat / frameBytes)
  | .periodCount => s.periodCount
  | .tableCap => BitVec.ofNat 32 s.cfg.tableCapacity
  | .tableEntry i => s.table.getD i 0
  | .reserved _ => 0

/-- What a 32-bit write does (R143): the four configuration registers take the value; a write to a read-only or reserved
register is ignored (R144, R145). -/
def writeReg (s : State) (v : Word) : Reg → State
  | .status => s
  | .tableCount => s
  | .sampleRate => s.setRegs { s.regs with rate := v }
  | .periodFrames => s.setRegs { s.regs with period := v }
  | .bufferBytes => s.setRegs { s.regs with bytes := v }
  | .bufferBase => s.setRegs { s.regs with base := v }
  | .cursor => s
  | .position => s
  | .periodCount => s
  | .tableCap => s
  | .tableEntry _ => s
  | .reserved _ => s

end Sys2Proof.Machine
end

