-- ==== Sys2Proof/Machine/Bus.lean ====
section
/-! DEFINITION. The host port (44_register_access.md), the consumer's reads (R46), and what each input of the block does.
A step fetches here: a command's word is the word a master writes to CMD. -/

namespace Sys2Proof.Machine

/-- The register offset of a host address: `addr - REG_BASE` (R10, R40(a)); none below `REG_BASE` (log 13). -/
def regOffset (c : Config) (addr : Nat) : Option Nat := if addr < c.regBase then none else some (addr - c.regBase)

/-- R141: which widths and offsets get BUSERROR. -/
def busErrorAt (bits o : Nat) : Bool :=
  decide ((bits ≠ 32 ∧ bits ≠ 64) ∨ o % (bits / 8) ≠ 0 ∨ (bits = 64 ∧ o ≠ 0x00000) ∨
    (bits = 32 ∧ (o = 0x00000 ∨ o = 0x00004)) ∨ 0x7FFFF < o)

/-- The CMD write (R62, R142): an illegal word gives INVALID_COMMAND and nothing else (R65); any other runs its instruction
to completion. -/
def runCommand (w : CmdWord) (s : State) : Host.Outcome State Fault Refusal :=
  match decode .host w with
  | .ok i => exec i s
  | .error _ => finishCommand .invalidCommand s

/-- An access of master `m` at offset `o`, none of R141's cases (R142, R143). -/
def accessAt (m : Nat) (a : Access) (o : Nat) (s : State) : Host.Outcome State Fault Refusal :=
  match a with
  | .rd32 _ => .next (s.respond m (.okayValue32 (readReg s (regAt s.cfg o))))
  | .wr32 _ v => .next ((writeReg s v (regAt s.cfg o)).respond m .okay)
  | .rd64 _ => .next (s.respond m (.okayValue64 0))
  | .wr64 _ w => andThen (runCommand w s) fun s' => s'.respond m (.okayResult s'.result)
  | .otherWidth _ _ => .next (s.respond m .busError)

/-- One host access (R140): bus errors first, whatever the data (R163(a)), then the access itself. -/
def hostAccess (m : Nat) (a : Access) (s : State) : Host.Outcome State Fault Refusal :=
  match regOffset s.cfg a.addr with
  | none => .next (s.respond m .busError)
  | some o => if busErrorAt a.bits o = true then .next (s.respond m .busError) else accessAt m a o s

/-- The consumer's `MemRead(addr, n)` (R5, R46): it sees the bytes and changes nothing of the block. Every byte of the
sample space is addressable (R40(b)), and one that the block has not written has any value (I10), backed or not. Bytes
outside the space do not exist (log 7). -/
def consumerRead (addr n : Nat) (s : State) : Host.Outcome State Fault Refusal :=
  if inSampleSpace s.cfg addr n = false then .fault .sampleAddressOutside
  else .next (s.output (.consumed addr (s.memRead addr n)))

/-- What one input does to a state it has been taken from (R44: one atomic step). -/
def runInput (i : Input) (s : State) : Host.Outcome State Fault Refusal :=
  match i with
  | .host m a => hostAccess m a s
  | .timer => exec .tick s
  | .consumer addr n => consumerRead addr n s
  | .reset => .next (resetBlock s)

/-- With no input left: the pending tick of an ARMED block is delivered (R27(a), R123); any other block waits (R180). -/
def runPending (s : State) : Host.Outcome State Fault Refusal :=
  match s.sched with
  | .armed => exec .tick s
  | .idle => .next s
  | .stopped => .next s
  | .halted => .next s

/-- The input that stands for a word of the opcode table: the timer's event for the TICK word, else master 0's write of the
word to CMD (R62, R68). -/
def inputOfWord (c : Config) (nbits w : Nat) : Input :=
  match decodeTableWord nbits w with
  | some .tick => .timer
  | some _ => .host 0 (.wr64 (c.hostAddress cmdOffset) (tableWord nbits w))
  | none => .host 0 (.wr64 (c.hostAddress cmdOffset) (tableWord nbits w))

end Sys2Proof.Machine
end

