-- ==== Sys2Proof/Machine/Assembler.lean ====
section
/-! DEFINITION. The assembler syntax of R67 as the accesses it stands for. Addresses are host addresses (R10). -/

namespace Sys2Proof.Machine

/-- `WR64 CMD, w`. -/
def asmCommand (c : Config) (w : CmdWord) : Access := .wr64 (c.hostAddress cmdOffset) w

/-- `WR32 <reg>, v`. -/
def asmWrite (c : Config) (r : Reg) (v : Word) : Access := .wr32 (c.hostAddress r.offset) v

/-- `RD32 <reg>`. -/
def asmRead (c : Config) (r : Reg) : Access := .rd32 (c.hostAddress r.offset)

/-- `ADD_OSC <word>`. -/
def asmAddOsc (c : Config) (d : Word) : Access := asmCommand c (encode (.addOsc d))

/-- `ADD_OSC amp=a, phase=p, freq=f`, with `encode` of R80. -/
def asmAddOscFields (c : Config) (a p f : Int) : Access := asmAddOsc c (encodeDescriptor a p f)

/-- `REMOVE_FREQ f`: the operand is `zext_32(trunc_16(f))`. -/
def asmRemoveFreq (c : Config) (f : Int) : Access := asmCommand c (encode (.removeFreq (BitVec.ofNat 32 (trunc 16 f))))

/-- `ARM`. -/
def asmArm (c : Config) : Access := asmCommand c (encode (.arm 0))

/-- `STOP`. -/
def asmStop (c : Config) : Access := asmCommand c (encode (.stop 0))

/-- `SETUP rate, period, bytes, base`. -/
def asmSetup (c : Config) (p : StreamParams) : List Access :=
  [asmWrite c .sampleRate p.rate, asmWrite c .periodFrames p.period, asmWrite c .bufferBytes p.bytes,
   asmWrite c .bufferBase p.base]

end Sys2Proof.Machine
end

