-- ==== Sys2Proof/Machine/Step.lean ====
section
/-! DEFINITION. One step of the machine (R44): the next input of the total order, or the pending tick. -/

namespace Sys2Proof.Machine

/-- One atomic step. -/
def step (s : State) : Host.Outcome State Fault Refusal :=
  match s.inputs with
  | [] => runPending s
  | i :: rest => runInput i (s.setInputs rest)

/-- `s` with the instruction of a table word as the very next input (log 2). -/
def State.withFetchWord (s : State) (nbits w : Nat) : State :=
  s.setInputs (inputOfWord s.cfg nbits w :: s.inputs)

end Sys2Proof.Machine
end

