-- ==== Sys2Proof/Safety.lean ====
section
/-! DEFINITION. What claims are about: launch states (R182), the invariant every step keeps, the fatal outcome (R6), the end
of a run (R191), and runs. -/

namespace Sys2Proof.Machine

/-- Latched parameters that ARM lets through (R120, R182): a rate, a period, a 4-aligned base, a region inside the sample
space. -/
structure StreamParams.Launchable (c : Config) (p : StreamParams) : Prop where
  rate_pos : 1 ≤ p.rate.toNat
  period_pos : 1 ≤ p.period.toNat
  base_aligned : p.base.toNat % 4 = 0
  region_inside : p.base.toNat + p.bytes.toNat ≤ c.sampleSpace

/-- What every step keeps, whatever its input: well-formed parameters (R1), canonical memory inside the sample space
(R40(b)), a table within its capacity (R22), a frame-aligned cursor (R28), and while ARMED parameters that passed ARM, a cursor
inside the region or at 0 (R28, R182), and a region that is backed (R54). -/
structure State.Inv (s : State) : Prop where
  cfg_wf : s.cfg.wf = true
  mem_wf : Memory.wf s.mem = true
  mem_inside : Memory.below s.cfg.sampleSpace s.mem = true
  table_fits : s.table.length ≤ s.cfg.tableCapacity
  cursor_aligned : s.cursor.toNat % 4 = 0
  armed_params : s.sched = .armed → s.lat.Launchable s.cfg
  armed_cursor : s.sched = .armed → s.cursor.toNat < s.lat.bytes.toNat ∨ s.cursor.toNat = 0
  armed_backed : s.sched = .armed → regionBacked s.cfg s.lat = true

/-- Every byte of the latched region is backed by writable memory (R54's premise). -/
def State.RegionBacked (s : State) : Prop := regionBacked s.cfg s.lat = true

/-- FATAL = 1 (R12): the fatal outcome of R6. "It is never a successful end of a run" (R162). -/
def State.FatalOutcome (s : State) : Prop := s.sched.fatal = 1#1

/-- A launch state (R182): the invariant, with its backed region while ARMED, and FATAL = 0. A region that a later ARM would
start without memory is refused by that ARM (R54). -/
structure State.Launch (s : State) : Prop where
  inv : s.Inv
  not_fatal : ¬ s.FatalOutcome

/-- The inputs that the spec's agents can give: an access of an admitted form (R140, R141), a consumer's read of addresses
that exist (R40(b)). -/
def Input.wf (c : Config) : Input → Bool
  | .host _ a => a.wf
  | .timer => true
  | .consumer addr n => inSampleSpace c addr n
  | .reset => true

/-- `k` steps, up to the first stop. -/
def runSteps : Nat → State → Host.Outcome State Fault Refusal
  | 0, s => .next s
  | k + 1, s =>
    match step s with
    | .next s' => runSteps k s'
    | .fault r => .fault r
    | .refused r => .refused r

/-- `k` TICK events, one after the other. -/
def runTicks : Nat → State → Host.Outcome State Fault Refusal
  | 0, s => .next s
  | k + 1, s =>
    match exec .tick s with
    | .next s' => runTicks k s'
    | .fault r => .fault r
    | .refused r => .refused r

/-- The event history of sample writes replayed onto a memory (R47: "the latest earlier `MemWrite` to it"). -/
def replay : List HistoryEvent → Memory → Memory
  | [], m => m
  | .sampleWrite a n v :: es, m => replay es (Memory.writeBytes m a (littleEndianBytes n v.toNat))
  | .periodElapsed :: es, m => replay es m

/-! ## What a step runs -/

/-- The next input is a CMD write of a word that decodes to `i` (R62). -/
def State.RunsCommand (s : State) (i : Instr) : Prop :=
  ∃ (m : Nat) (w : CmdWord) (rest : List Input),
    s.inputs = .host m (.wr64 (s.cfg.hostAddress cmdOffset) w) :: rest ∧ decode .host w = .ok i

/-- The next step is a TICK: the timer's input, or the pending tick when no input is left (R27(a)). -/
def State.RunsTick (s : State) : Prop :=
  (s.inputs = [] ∧ s.sched = .armed) ∨ ∃ rest, s.inputs = .timer :: rest

/-- The next step is reset (R180). -/
def State.RunsReset (s : State) : Prop := ∃ rest, s.inputs = .reset :: rest

/-- The input is a CMD write that decodes to an instruction `p` holds of. -/
def Input.IsCommand (c : Config) (p : Instr → Prop) (i : Input) : Prop :=
  ∃ (m : Nat) (w : CmdWord) (j : Instr), i = .host m (.wr64 (c.hostAddress cmdOffset) w) ∧ decode .host w = .ok j ∧ p j

/-- Every consumer's read among these inputs stays inside the sample space (R40(b)). -/
def ReadsInside (c : Config) (l : List Input) : Prop :=
  ∀ addr n, .consumer addr n ∈ l → addr + n ≤ c.sampleSpace

/-! ## The end of a run (R191) -/

/-- A host master's access. -/
def Input.isHost : Input → Bool
  | .host _ _ => true
  | .timer => false
  | .consumer _ _ => false
  | .reset => false

/-- The program's last host access has responded: none is left to come. Other inputs may be. -/
def State.AccessesDone (s : State) : Prop := ∀ i ∈ s.inputs, i.isHost = false

/-- R191(a): the last host access has responded, and no tick is pending. -/
def State.Ended (s : State) : Prop := s.AccessesDone ∧ (s.sched = .idle ∨ s.sched = .stopped)

/-- Whether the next step is a TICK event: `State.RunsTick`, as a Bool. -/
def State.nextIsTick (s : State) : Bool :=
  match s.inputs with
  | [] => decide (s.sched = .armed)
  | .timer :: _ => true
  | .host _ _ :: _ => false
  | .consumer _ _ :: _ => false
  | .reset :: _ => false

/-- How many of the next `k` steps are TICK events, up to the first stop. -/
def countTicks : Nat → State → Nat
  | 0, _ => 0
  | k + 1, s =>
    match step s with
    | .next s' => s.nextIsTick.toNat + countTicks k s'
    | .fault _ => 0
    | .refused _ => 0

/-- `s` is the first state of the run from `s0` in which the program's last access has responded. -/
def State.LastResponded (s0 s : State) : Prop :=
  ∃ k, runSteps k s0 = .next s ∧ s.AccessesDone ∧ ∀ j u, j < k → runSteps j s0 = .next u → ¬ u.AccessesDone

/-- R191(b): `t` is reached from `s0` after the program's last access and exactly `n` further TICK events, and FATAL = 0. -/
def State.EndsAfterTicks (n : Nat) (s0 t : State) : Prop :=
  ∃ s k, s0.LastResponded s ∧ runSteps k s = .next t ∧ countTicks k s = n ∧ ¬ t.FatalOutcome

/-! ## What a tick is to write -/

/-- R108(d): the value of frame `k` of a fill over table `t` at rate `r`, from the phases at its start. -/
def toneSample (c : Config) (t : List Word) (r k : Nat) : Int :=
  if t.length = 0 then 0
  else Int.tdiv (t.map fun e => sineAt c ((phaseOf e).toNat + k * (360 * (freqOf e).toNat / r))).sum t.length

/-- R106: the four bytes of a frame of value `v`, `s[7:0], s[15:8], s[7:0], s[15:8]`. -/
def frameBytesOf (v : Int) : List Byte :=
  [(BitVec.ofInt 16 v).extractLsb' 0 8, (BitVec.ofInt 16 v).extractLsb' 8 8,
   (BitVec.ofInt 16 v).extractLsb' 0 8, (BitVec.ofInt 16 v).extractLsb' 8 8]

/-- R108(b): an entry after `n ≥ 1` frames. -/
def entryAfter (r n : Nat) (e : Word) : Word :=
  setPhase e (((phaseOf e).toNat + n * (360 * (freqOf e).toNat / r)) % 360 : Nat)

/-- How many PERIOD_ELAPSED events a history holds (R166). -/
def notifications (h : List HistoryEvent) : Nat := h.count .periodElapsed

/-- How many frame writes a history holds. -/
def frameWrites (h : List HistoryEvent) : Nat :=
  h.countP fun e => match e with
    | .sampleWrite _ _ _ => true
    | .periodElapsed => false

/-- The descriptors that the ADD_OSC commands among these inputs carry, in their order. -/
def addedDescriptors (c : Config) : List Input → List Word
  | [] => []
  | .host _ (.wr64 a w) :: l =>
    if a = c.hostAddress cmdOffset ∧ opField w = 0x01#8 then argField w :: addedDescriptors c l else addedDescriptors c l
  | _ :: l => addedDescriptors c l

/-! ## Renaming the masters -/

/-- An input with its master's tag renamed. -/
def Input.retag (f : Nat → Nat) : Input → Input
  | .host m a => .host (f m) a
  | .timer => .timer
  | .consumer a n => .consumer a n
  | .reset => .reset

/-- An output with its master's tag renamed. -/
def Output.retag (f : Nat → Nat) : Output → Output
  | .response m r => .response (f m) r
  | .consumed a bs => .consumed a bs

/-- A state with every master's tag renamed. -/
def State.retag (f : Nat → Nat) (s : State) : State :=
  { s with inputs := s.inputs.map (Input.retag f), outputs := s.outputs.map (Output.retag f) }

end Sys2Proof.Machine
end

