-- ==== Sys2Proof/Certificates/Slice0/Obligations.lean ====
section
/-! DEFINITION. The statements for the provers, from the numbered rules of spec/. A next state is written as the state
before with the fields that change, so each equation is its own frame. -/

open Sys2Proof Sys2Proof.Machine

/-! ## Encoding -/

/-- Decode and encode agree at both ports, for every well-formed instruction and every operand (R62, R63, R68). -/
def Obligations.EncodeThenDecode : Prop :=
  ∀ (src : Source) (i : Instr), Instr.wf src i = true → decode src (encode i) = .ok i

/-- A word that decodes is the encoding of what it decodes to, and a port decodes only what it may issue (R63). -/
def Obligations.DecodeThenEncode : Prop :=
  ∀ (src : Source) (w : CmdWord) (i : Instr), decode src w = .ok i → encode i = w ∧ Instr.wf src i = true

/-- A few words of 95_test_vectors.md, written out (V20, V25, P2, R68, V30, V31). -/
def Obligations.SpecWordsDecode : Prop :=
  decode .host 0x0000000101E00064#64 = .ok (.addOsc 0x01E00064#32) ∧
  decode .host 0x00000002010001E0#64 = .ok (.removeFreq 0x010001E0#32) ∧
  decode .host 0x0000000300000000#64 = .ok (.arm 0#32) ∧
  decode .host 0x0000000400000000#64 = .ok (.stop 0#32) ∧
  decode .timer 0x0000008000000000#64 = .ok .tick ∧
  decode .host 0x0000008000000000#64 = .error .tickFromHost ∧
  decode .host 0x0000010200002EE0#64 = .error .reservedBits

/-- The decoder and the opcode map's mask and match rows (spec/opcode_table.json, R63) pick out the same words. -/
def Obligations.DecoderMatchesOpcodeRows : Prop :=
  ∀ (src : Source) (w : CmdWord),
    (∃ i, decode src w = .ok i) ↔ ∃ row ∈ opcodeRows, row.source = src ∧ w &&& row.mask = row.pattern

/-- R65: a word with `RSVD ≠ 0` or with `OP` outside 0x01..0x04, 0x80 among them, is illegal; the write of one changes
`S.result` alone and answers OKAY(INVALID_COMMAND). -/
def Obligations.IllegalCommandChangesOnlyResult : Prop :=
  ∀ (s : State) (m : Nat) (w : CmdWord) (rest : List Input),
    s.inputs = .host m (.wr64 s.cfg.regBase w) :: rest →
    (w.extractLsb' 40 24 ≠ 0#24 ∨ (w.extractLsb' 32 8).toNat = 0 ∨ 4 < (w.extractLsb' 32 8).toNat) →
    step s = .next { s with
      inputs := rest, result := .invalidCommand,
      outputs := s.outputs ++ [.response m (.okayResult .invalidCommand)] }

/-! ## The step -/

/-- A step runs the instruction it fetches: a CMD write of a word that decodes to `i` is `exec i` on the state without that
input, and then one response, whose result is also what STATUS.RESULT holds (R62, R142). No command stops but an ARM that the
model refuses (R54, log 6). -/
def Obligations.StepRunsCommand : Prop :=
  ∀ (s : State) (m : Nat) (w : CmdWord) (rest : List Input) (i : Instr),
    s.inputs = .host m (.wr64 s.cfg.regBase w) :: rest → decode .host w = .ok i →
    (∃ t, exec i { s with inputs := rest } = .next t ∧
      step s = .next { t with outputs := s.outputs ++ [.response m (.okayResult t.result)] } ∧
      t.outputs = s.outputs ∧ t.inputs = rest) ∨
    ((∃ arg, i = .arm arg) ∧ exec i { s with inputs := rest } = .refused .regionNotBacked ∧
      step s = .refused .regionNotBacked)

/-- A step runs TICK when the timer's input comes, and when no input is left while ARMED; with no input left and not ARMED
it waits (R123, R27(a)). That the pending tick comes when no input is left is the model's choice (log 1). -/
def Obligations.StepRunsTick : Prop :=
  (∀ (s : State) (rest : List Input), s.inputs = .timer :: rest → step s = exec .tick { s with inputs := rest }) ∧
  (∀ s : State, s.inputs = [] → s.sched = .armed → step s = exec .tick s) ∧
  (∀ s : State, s.inputs = [] → s.sched ≠ .armed → step s = .next s)

/-- The model's `State.withFetchWord` (log 2): the next step runs the instruction that a table word decodes to. -/
def Obligations.FetchedWordRuns : Prop :=
  ∀ (s : State) (arg : Word),
    step (s.withFetchWord 64 (0x0000000100000000 + arg.toNat)) =
      andThen (exec (.addOsc arg) s) (fun t => t.respond 0 (.okayResult t.result)) ∧
    step (s.withFetchWord 64 (0x0000000200000000 + arg.toNat)) =
      andThen (exec (.removeFreq arg) s) (fun t => t.respond 0 (.okayResult t.result)) ∧
    step (s.withFetchWord 64 (0x0000000300000000 + arg.toNat)) =
      andThen (exec (.arm arg) s) (fun t => t.respond 0 (.okayResult t.result)) ∧
    step (s.withFetchWord 64 (0x0000000400000000 + arg.toNat)) =
      andThen (exec (.stop arg) s) (fun t => t.respond 0 (.okayResult t.result)) ∧
    step (s.withFetchWord 64 0x0000008000000000) = exec .tick s

/-! ## The codec -/

/-- R85: round trip, full coverage, independent setters, truncation. -/
def Obligations.CodecLaws : Prop :=
  (∀ a p f : Nat, a < 128 → p < 512 → f < 65536 → decodeDescriptor (encodeDescriptor a p f) = (a, p, f)) ∧
  (∀ w : Word, encodeDescriptor (decodeDescriptor w).1 (decodeDescriptor w).2.1 (decodeDescriptor w).2.2 = w) ∧
  (∀ (w : Word) (v : Int),
    (phaseOf (setAmplitude w v) = phaseOf w ∧ freqOf (setAmplitude w v) = freqOf w) ∧
    (ampOf (setPhase w v) = ampOf w ∧ freqOf (setPhase w v) = freqOf w) ∧
    (ampOf (setFrequency w v) = ampOf w ∧ phaseOf (setFrequency w v) = phaseOf w)) ∧
  (∀ a p f : Int, decodeDescriptor (encodeDescriptor a p f) = (trunc 7 a, trunc 9 p, trunc 16 f))

/-- R82, R83, R84: each setter as `encode` of the new field and the two old ones, and in the rule's mask form. -/
def Obligations.SettersAsMasks : Prop :=
  ∀ (w : Word) (v : Int),
    setAmplitude w v = encodeDescriptor v (phaseOf w).toNat (freqOf w).toNat ∧
    setPhase w v = encodeDescriptor (ampOf w).toNat v (freqOf w).toNat ∧
    setFrequency w v = encodeDescriptor (ampOf w).toNat (phaseOf w).toNat v ∧
    setAmplitude w v = (w &&& 0xFFFFFF80#32) ||| BitVec.ofNat 32 (trunc 7 v) ∧
    setPhase w v = (w &&& 0xFFFF007F#32) ||| BitVec.ofNat 32 (2 ^ 7 * trunc 9 v) ∧
    setFrequency w v = (w &&& 0x0000FFFF#32) ||| BitVec.ofNat 32 (2 ^ 16 * trunc 16 v)

/-! ## The table commands -/

/-- R90: the words of ADD_OSC; a full table gives OUT_OF_MEMORY and nothing else; otherwise the descriptor is appended last.
In every scheduler state, and with nothing else changed. -/
def Obligations.AddOscAppendsOrReportsFull : Prop :=
  ∀ (arg : Word) (s : State),
    (∀ w : CmdWord, decode .host w = .ok (.addOsc arg) ↔
      w &&& 0xFFFFFFFF00000000#64 = 0x0000000100000000#64 ∧ w.extractLsb' 0 32 = arg) ∧
    (s.table.length = s.cfg.tableCapacity →
      exec (.addOsc arg) s = .next { s with result := .outOfMemory }) ∧
    (s.table.length ≠ s.cfg.tableCapacity →
      exec (.addOsc arg) s = .next { s with table := s.table ++ [arg], result := .ok })

/-- R91: the words of REMOVE_FREQ; every entry whose frequency field is the key `ARG[15:0]` goes, the others stay in their
order; always OK. In every scheduler state, and with nothing else changed. -/
def Obligations.RemoveFreqKeepsSurvivors : Prop :=
  ∀ (arg : Word) (s : State),
    (∀ w : CmdWord, decode .host w = .ok (.removeFreq arg) ↔
      w &&& 0xFFFFFFFF00000000#64 = 0x0000000200000000#64 ∧ w.extractLsb' 0 32 = arg) ∧
    exec (.removeFreq arg) s = .next { s with
      table := s.table.filter (fun e => e.extractLsb' 16 16 ≠ arg.extractLsb' 0 16), result := .ok }

/-- REMOVE_FREQ of the same key twice is REMOVE_FREQ once; no entry with the key is left, every other one is, as often as
before (R91, R92(c), R92(e)). -/
def Obligations.RemoveFreqIdempotent : Prop :=
  ∀ (arg arg' : Word) (s t : State), arg.extractLsb' 0 16 = arg'.extractLsb' 0 16 →
    exec (.removeFreq arg) s = .next t →
    exec (.removeFreq arg') t = .next t ∧
    ∀ e : Word, t.table.count e = if freqOf e = arg.extractLsb' 0 16 then 0 else s.table.count e

/-- R92(f), R49: however ADD_OSC commands of any masters and ticks interleave, if the table has room for all of them, the
run completes and the table's frequency and amplitude fields are the old ones followed by each added descriptor's, once and
in the commands' order. -/
def Obligations.InterleavedAddsAllAppear : Prop :=
  ∀ (s : State), s.Launch →
    (∀ i ∈ s.inputs, i = .timer ∨ i.IsCommand s.cfg (fun j => ∃ d, j = .addOsc d)) →
    s.table.length + (addedDescriptors s.cfg s.inputs).length ≤ s.cfg.tableCapacity →
    ∃ t, runSteps s.inputs.length s = .next t ∧ t.inputs = [] ∧
      t.table.map (fun e => (ampOf e, freqOf e)) =
        (s.table ++ addedDescriptors s.cfg s.inputs).map (fun e => (ampOf e, freqOf e))

/-! ## The mixer -/

/-- R101 and R105 for one entry: the new phase is `(phase + (360·freq) div r) mod 360`, below 360; the other two fields
stay. -/
def Obligations.PhaseWriteBack : Prop :=
  ∀ (r : Nat) (e : Word),
    (phaseOf (advancePhase r e)).toNat = ((phaseOf e).toNat + (360 * (freqOf e).toNat) / r) % 360 ∧
    (phaseOf (advancePhase r e)).toNat < 360 ∧
    ampOf (advancePhase r e) = ampOf e ∧ freqOf (advancePhase r e) = freqOf e

/-- R103: the sum over the entries' contributions, in any order, fits a signed 32-bit accumulator. -/
def Obligations.AccumulatorNeverOverflows : Prop :=
  ∀ (c : Config) (t : List Word), c.wf = true → t.length ≤ c.tableCapacity →
    sumContrib c t = (t.map fun e => (c.sine[(phaseOf e).toNat % 360]'(Nat.mod_lt _ (by decide))).toInt).sum ∧
    -2 ^ 31 ≤ sumContrib c t ∧ sumContrib c t < 2 ^ 31 ∧
    ∀ t' : List Word, t.Perm t' → sumContrib c t' = sumContrib c t

/-- R104: silence for an empty table, else the mean truncated toward zero, which is a 16-bit sample. -/
def Obligations.MeanIsASample : Prop :=
  ∀ (c : Config) (t : List Word),
    (t = [] → frameValue c t = 0) ∧
    (t ≠ [] → frameValue c t = Int.tdiv (sumContrib c t) t.length) ∧
    -32768 ≤ frameValue c t ∧ frameValue c t ≤ 32767 ∧
    (BitVec.ofInt 16 (frameValue c t)).toInt = frameValue c t

/-- R108(b), R108(e): after `n ≥ 1` frames an entry's phase is `(p0 + n × st) mod 360`; amplitude, frequency and the number
of entries stay; after 0 frames nothing has changed. -/
def Obligations.MixPhaseAfterFrames : Prop :=
  ∀ (a r n : Nat) (s : State),
    (mix a r 0 s).table = s.table ∧
    (1 ≤ n → (mix a r n s).table = s.table.map (entryAfter r n))

/-- R108(a), R108(d), R106, R41: frame `k` of a MIX holds `tdiv(Σ SINE_TABLE[(p0 + k × st) mod 360], T.count)` in both
channels, little-endian; the `4n` bytes from `a` on are all it writes, and it changes only the table, sample memory and the
event history. -/
def Obligations.MixWritesEveryFrame : Prop :=
  ∀ (a r n : Nat) (s : State),
    (∀ k j, k < n → j < 4 →
      Memory.read (mix a r n s).mem (a + 4 * k + j) = (frameBytesOf (toneSample s.cfg s.table r k))[j]?) ∧
    (∀ x, ¬ (a ≤ x ∧ x < a + 4 * n) → Memory.read (mix a r n s).mem x = Memory.read s.mem x) ∧
    { mix a r n s with table := s.table, mem := s.mem, history := s.history } = s

/-- R108(c): two MIX calls back to back are one over the combined frames. -/
def Obligations.MixPhaseContinuity : Prop :=
  ∀ (a r n m : Nat) (s : State), mix (a + 4 * n) r m (mix a r n s) = mix a r (n + m) s

/-- R109: the phases an entry is evaluated at repeat after `360 / gcd(360, st)` frames, and after no smaller number. -/
def Obligations.TonePeriod : Prop :=
  ∀ (e : Word) (r k d : Nat),
    phaseOf ((advancePhase r)^[k + 1 + d] e) = phaseOf ((advancePhase r)^[k + 1] e) ↔
      360 / Nat.gcd 360 (360 * (freqOf e).toNat / r) ∣ d

/-- R102: the amplitude does not enter. Two states that differ only in amplitude fields tick alike, and differ only in
amplitude fields afterwards. -/
def Obligations.AmplitudeNeverHeard : Prop :=
  ∀ (s t : State) (table' : List Word),
    table'.map (fun e => setAmplitude e 0) = s.table.map (fun e => setAmplitude e 0) →
    exec .tick s = .next t →
    ∃ t', exec .tick { s with table := table' } = .next t' ∧
      t'.table.map (fun e => setAmplitude e 0) = t.table.map (fun e => setAmplitude e 0) ∧
      { t' with table := t.table } = t

/-! ## The scheduler -/

/-- R120: the words of ARM; ARM in IDLE or STOPPED with good parameters latches the four registers, sets cursor and period
count to 0 and goes to ARMED; in ARMED or HALTED, or with a bad parameter, it gives INVALID_COMMAND. Nothing else changes.
That the region is backed is R54's premise; an ARM that would start a stream without it is a launch the model refuses
(log 6). -/
def Obligations.ArmLatchesOrRefuses : Prop :=
  ∀ (arg : Word) (s : State),
    (∀ w : CmdWord, decode .host w = .ok (.arm arg) ↔
      w &&& 0xFFFFFFFF00000000#64 = 0x0000000300000000#64 ∧ w.extractLsb' 0 32 = arg) ∧
    (s.sched = .idle ∨ s.sched = .stopped →
      s.regs.rate ≠ 0 → s.regs.period ≠ 0 → s.regs.base.extractLsb' 0 2 = 0#2 →
      s.regs.base.toNat + s.regs.bytes.toNat ≤ 2 ^ s.cfg.sampleAddrBits →
      (backed s.cfg s.regs.base.toNat s.regs.bytes.toNat = true →
        exec (.arm arg) s = .next { s with
          lat := s.regs, cursor := 0, periodCount := 0, sched := .armed, result := .ok }) ∧
      (backed s.cfg s.regs.base.toNat s.regs.bytes.toNat = false →
        exec (.arm arg) s = .refused .regionNotBacked)) ∧
    (s.sched = .armed ∨ s.sched = .halted ∨ s.regs.rate = 0 ∨ s.regs.period = 0 ∨ s.regs.base.extractLsb' 0 2 ≠ 0#2 ∨
        2 ^ s.cfg.sampleAddrBits < s.regs.base.toNat + s.regs.bytes.toNat →
      exec (.arm arg) s = .next { s with result := .invalidCommand })

/-- R121: the words of STOP; STOP in ARMED goes to STOPPED; in any other state it changes nothing; the result is always OK;
a TICK that follows has no effect. -/
def Obligations.StopStopsOnlyArmed : Prop :=
  ∀ (arg : Word) (s : State),
    (∀ w : CmdWord, decode .host w = .ok (.stop arg) ↔
      w &&& 0xFFFFFFFF00000000#64 = 0x0000000400000000#64 ∧ w.extractLsb' 0 32 = arg) ∧
    (s.sched = .armed → exec (.stop arg) s = .next { s with sched := .stopped, result := .ok }) ∧
    (s.sched ≠ .armed → exec (.stop arg) s = .next { s with result := .ok }) ∧
    (∀ t, exec (.stop arg) s = .next t → exec .tick t = .next t)

/-- A TICK that arrives in IDLE, STOPPED or HALTED has no effect at all (R122, R125). -/
def Obligations.TickOutsideArmedDoesNothing : Prop :=
  ∀ s : State, s.sched ≠ .armed → exec .tick s = .next s

/-- R162: over a backed region (R54), a TICK that finds the cursor invariant false halts the scheduler and does nothing else; STATUS then shows
STATE = 3, RUNNING = 0 and FATAL = 1. This is where TICK takes its exception. -/
def Obligations.FatalTickHaltsOnly : Prop :=
  ∀ s : State, s.sched = .armed → s.RegionBacked → ¬ (s.cursor.toNat < s.lat.bytes.toNat) →
    exec .tick s = .next { s with sched := .halted } ∧
    (statusWord { s with sched := .halted }).toNat = s.result.code.toNat + 4 * 3 + 32

/-- R125, R126: over a backed region (R54), where less than a period is left, a TICK skips the fill, and still advances the cursor and notifies. -/
def Obligations.SkippedTickAdvances : Prop :=
  ∀ s : State, s.sched = .armed → s.RegionBacked → s.cursor.toNat < s.lat.bytes.toNat →
    s.lat.bytes.toNat - s.cursor.toNat < 4 * s.lat.period.toNat →
    exec .tick s = .next { s with
      cursor := 0, periodCount := s.periodCount + 1, history := s.history ++ [.periodElapsed] }

/-- R125, R107, R126: where a period is left, a TICK writes its frames in ascending order, advances the phases and the cursor,
and notifies after the last write. It says every field of the next state; the form of the history's entries is the model's choice (log 12). -/
def Obligations.FillingTickWritesPeriod : Prop :=
  ∀ s : State, s.sched = .armed → s.lat.Launchable s.cfg → s.RegionBacked →
    s.cursor.toNat < s.lat.bytes.toNat →
    4 * s.lat.period.toNat ≤ s.lat.bytes.toNat - s.cursor.toNat →
    ∃ t, exec .tick s = .next t ∧
      (∀ k j, k < s.lat.period.toNat → j < 4 →
        Memory.read t.mem (s.lat.base.toNat + s.cursor.toNat + 4 * k + j) =
          (frameBytesOf (toneSample s.cfg s.table s.lat.rate.toNat k))[j]?) ∧
      (∀ x, ¬ (s.lat.base.toNat + s.cursor.toNat ≤ x ∧
          x < s.lat.base.toNat + s.cursor.toNat + 4 * s.lat.period.toNat) →
        Memory.read t.mem x = Memory.read s.mem x) ∧
      t.table = s.table.map (entryAfter s.lat.rate.toNat s.lat.period.toNat) ∧
      t.history = s.history ++ (List.range s.lat.period.toNat).map (fun k =>
        .sampleWrite (s.lat.base.toNat + s.cursor.toNat + 4 * k) 4
          (BitVec.ofNat 32 (65537 * (BitVec.ofInt 16 (toneSample s.cfg s.table s.lat.rate.toNat k)).toNat)))
        ++ [.periodElapsed] ∧
      t.cursor.toNat = (if s.lat.bytes.toNat ≤ s.cursor.toNat + 4 * s.lat.period.toNat then 0
        else s.cursor.toNat + 4 * s.lat.period.toNat) ∧
      t.periodCount = s.periodCount + 1 ∧
      t.cfg = s.cfg ∧ t.regs = s.regs ∧ t.lat = s.lat ∧ t.sched = s.sched ∧ t.result = s.result ∧
      t.inputs = s.inputs ∧ t.outputs = s.outputs

/-- The model's stops of TICK, exactly (log 6, log 8): ARMED over a region that is not backed it is refused (R54, I15); a
fill with a latched rate of 0, which R101 and R107 exclude, is refused; in every other state it answers a next state. -/
def Obligations.TickStopsExactly : Prop :=
  ∀ s : State,
    (s.sched = .armed → ¬ s.RegionBacked → exec .tick s = .refused .regionNotBacked) ∧
    (s.sched = .armed → s.RegionBacked → s.cursor.toNat < s.lat.bytes.toNat →
      4 * s.lat.period.toNat ≤ s.lat.bytes.toNat - s.cursor.toNat → s.lat.rate = 0 →
      exec .tick s = .refused .zeroRateLaunch) ∧
    (¬ (s.sched = .armed ∧ ¬ s.RegionBacked) →
      ¬ (s.sched = .armed ∧ s.cursor.toNat < s.lat.bytes.toNat ∧
        4 * s.lat.period.toNat ≤ s.lat.bytes.toNat - s.cursor.toNat ∧ s.lat.rate = 0) →
      ∃ t, exec .tick s = .next t)

/-- R183: the configuration registers change nothing in the running stream: a TICK and a write of them commute. -/
def Obligations.ConfigWritesCommuteWithTick : Prop :=
  ∀ (s : State) (p : StreamParams),
    exec .tick { s with regs := p } = andThen (exec .tick s) (fun t => { t with regs := p })

/-- R127(b), R127(e): from cursor 0 the cursor runs `0, P, 2P, …, mP` with `m = (B − 1) div P` and starts again, for every
number of ticks, each raising one notification; the block stays ARMED with the same parameters. -/
def Obligations.CursorSequence : Prop :=
  ∀ (s : State) (k : Nat), s.sched = .armed → s.lat.Launchable s.cfg → s.RegionBacked →
    s.cursor = 0 → 0 < s.lat.bytes.toNat →
    ∃ t, runTicks k s = .next t ∧
      t.cursor.toNat = 4 * s.lat.period.toNat *
        (k % ((s.lat.bytes.toNat - 1) / (4 * s.lat.period.toNat) + 1)) ∧
      t.periodCount = s.periodCount + BitVec.ofNat 32 k ∧
      notifications t.history = notifications s.history + k ∧
      t.sched = .armed ∧ t.lat = s.lat ∧ t.cfg = s.cfg

/-- R127(d): when a period is larger than the region every tick skips: the cursor stays 0, the phases never advance and
sample memory is never written. -/
def Obligations.OversizedPeriodNeverFills : Prop :=
  ∀ (s : State) (k : Nat), s.sched = .armed → s.RegionBacked → s.cursor = 0 → 0 < s.lat.bytes.toNat →
    s.lat.bytes.toNat < 4 * s.lat.period.toNat →
    runTicks k s = .next { s with
      periodCount := s.periodCount + BitVec.ofNat 32 k,
      history := s.history ++ List.replicate k .periodElapsed }

/-- R127(c): one cycle of the cursor, `m + 1` ticks with `m = (B − 1) div P`, has `B div P` fills of a whole period each,
and ends with the cursor at 0 again. -/
def Obligations.FillsPerCycle : Prop :=
  ∀ s : State, s.sched = .armed → s.lat.Launchable s.cfg → s.RegionBacked →
    s.cursor = 0 → 0 < s.lat.bytes.toNat →
    ∃ t, runTicks ((s.lat.bytes.toNat - 1) / (4 * s.lat.period.toNat) + 1) s = .next t ∧ t.cursor = 0 ∧
      frameWrites t.history =
        frameWrites s.history + s.lat.period.toNat * (s.lat.bytes.toNat / (4 * s.lat.period.toNat))

/-- R28: under the invariant the cursor check of a TICK can fail in one case only, an empty region. -/
def Obligations.FatalOnlyForEmptyRegion : Prop :=
  ∀ s t : State, s.Inv → s.sched = .armed → exec .tick s = .next t → t.sched = .halted →
    s.lat.bytes = 0 ∧ s.cursor = 0

/-! ## Whole-machine rules -/

/-- R122: `S.state` changes only by ARM, STOP, the fatal path of a TICK, and reset, each between the states the rule
names. -/
def Obligations.SchedulerTransitions : Prop :=
  ∀ s t : State, step s = .next t → t.sched ≠ s.sched →
    ((s.sched = .idle ∨ s.sched = .stopped) ∧ t.sched = .armed ∧ ∃ arg, s.RunsCommand (.arm arg)) ∨
    (s.sched = .armed ∧ t.sched = .stopped ∧ ∃ arg, s.RunsCommand (.stop arg)) ∨
    (s.sched = .armed ∧ t.sched = .halted ∧ s.RunsTick ∧ ¬ (s.cursor.toNat < s.lat.bytes.toNat)) ∨
    (t.sched = .idle ∧ s.RunsReset)

/-- R22: only four things write the table: ADD_OSC, REMOVE_FREQ, a TICK while ARMED, and reset. -/
def Obligations.TableWriters : Prop :=
  ∀ s t : State, step s = .next t → t.table ≠ s.table →
    (∃ arg, s.RunsCommand (.addOsc arg)) ∨ (∃ arg, s.RunsCommand (.removeFreq arg)) ∨
    (s.RunsTick ∧ s.sched = .armed) ∨ s.RunsReset

/-- R92(d): a TICK changes only the phase field of existing entries: never their number, an amplitude or a frequency. -/
def Obligations.TickKeepsAmplitudeAndFrequency : Prop :=
  ∀ s t : State, exec .tick s = .next t →
    t.table.map (fun e => (ampOf e, freqOf e)) = s.table.map (fun e => (ampOf e, freqOf e))

/-- R41: a byte of sample memory changes only in a TICK while ARMED, and lies in the period that starts at the cursor, which
lies in the latched region and in the sample space. -/
def Obligations.WritesStayInsideRegion : Prop :=
  ∀ (s t : State) (x : Nat), step s = .next t → Memory.read t.mem x ≠ Memory.read s.mem x →
    s.RunsTick ∧ s.sched = .armed ∧
    s.lat.base.toNat + s.cursor.toNat ≤ x ∧ x < s.lat.base.toNat + s.cursor.toNat + 4 * s.lat.period.toNat ∧
    s.cursor.toNat + 4 * s.lat.period.toNat ≤ s.lat.bytes.toNat ∧ x < s.cfg.sampleSpace

/-- R47: sample memory is always the memory before with the recorded sample writes made in their order, over any number of
steps without a reset; the history only grows. The form of the history's entries is the model's choice (log 12). -/
def Obligations.MemoryIsHistoryReplayed : Prop :=
  ∀ (k : Nat) (s t : State), .reset ∉ s.inputs → runSteps k s = .next t →
    ∃ es, t.history = s.history ++ es ∧ t.mem = replay es s.mem

/-- R48(c), R121: once STOP's response has been given, no sample write is made however many ticks, commands, accesses and
resets follow, as long as no ARM is among them. -/
def Obligations.NoWriteAfterStop : Prop :=
  ∀ (k : Nat) (s t : State) (m : Nat) (arg : Word) (rest : List Input),
    s.inputs = .host m (.wr64 (s.cfg.hostAddress cmdOffset) (encode (.stop arg))) :: rest →
    (∀ i ∈ rest, ¬ i.IsCommand s.cfg (fun j => ∃ a, j = .arm a)) →
    runSteps (k + 1) s = .next t →
    t.mem = s.mem ∧ t.sched ≠ .armed ∧ ∀ e ∈ t.history, e ∈ s.history

/-- R162, R167: FATAL is sticky: without a reset a halted block stays halted, writes nothing, notifies nothing and keeps
cursor, period count and latched parameters, whatever it is asked for. -/
def Obligations.HaltedIsSticky : Prop :=
  ∀ (k : Nat) (s t : State), s.sched = .halted → .reset ∉ s.inputs → runSteps k s = .next t →
    t.sched = .halted ∧ t.mem = s.mem ∧ t.history = s.history ∧ t.cursor = s.cursor ∧
    t.periodCount = s.periodCount ∧ t.lat = s.lat

/-- Every step keeps the invariant: well-formed parameters, canonical memory inside the sample space, a table within its
capacity, a frame-aligned cursor, and while ARMED parameters that passed ARM and a backed region (R22, R28, R40, R54,
R182). -/
def Obligations.StepKeepsInv : Prop :=
  ∀ s t : State, s.Inv → step s = .next t → t.Inv

/-- The state after reset is a launch state of R182, for every well-formed set of parameters. -/
def Obligations.ResetIsLaunch : Prop :=
  ∀ c : Config, c.wf = true → (State.resetWith c).Launch

/-- From a state with the invariant and memory behind the whole sample space, no run stops: every number of steps gives a
next state, unless the consumer reads outside the sample space (R6, R54, R182). -/
def Obligations.RunsNeverStop : Prop :=
  ∀ (k : Nat) (s : State), s.Inv → backed s.cfg 0 s.cfg.sampleSpace = true → ReadsInside s.cfg s.inputs →
    ∃ t, runSteps k s = .next t ∧ t.Inv

/-- R123's liveness, bounded: a block that is ARMED over a region that is not empty, and is asked neither to STOP nor to
reset, has notified at least `k` more periods after `k` steps beyond its inputs, and is still ARMED. That the pending tick comes when no
input is left is the model's choice (log 1). -/
def Obligations.ArmedBlockKeepsNotifying : Prop :=
  ∀ (k : Nat) (s : State), s.Inv → s.sched = .armed → 0 < s.lat.bytes.toNat →
    backed s.cfg 0 s.cfg.sampleSpace = true → ReadsInside s.cfg s.inputs → .reset ∉ s.inputs →
    (∀ i ∈ s.inputs, ¬ i.IsCommand s.cfg (fun j => ∃ a, j = .stop a)) →
    ∃ t, runSteps (s.inputs.length + k) s = .next t ∧ t.sched = .armed ∧
      notifications s.history + k ≤ notifications t.history

/-- R172, R146: masters have no identifiers in the block: renaming every master's tag renames the tags of the responses and
changes nothing else. That an input and a response carry a tag is the model's choice (log 10). -/
def Obligations.MasterTagsAreInvisible : Prop :=
  ∀ (f : Nat → Nat) (s : State), step (s.retag f) = andThen (step s) (fun t => t.retag f)

/-! ## Registers -/

/-- R141, R163(a): exactly the five cases get BUSERROR, with no state change; any other access of an admitted form completes
with another response (R142 to R145). The model's own, beside these rules: an address below REG_BASE, which has no offset,
gets BUSERROR too (log 13), and a CMD write of an ARM may be refused for want of memory (R54, log 6). -/
def Obligations.BusErrorsExactly : Prop :=
  ∀ (s : State) (m : Nat) (a : Access) (rest : List Input), s.inputs = .host m a :: rest →
    (a.addr < s.cfg.regBase →
      step s = .next { s with inputs := rest, outputs := s.outputs ++ [.response m .busError] }) ∧
    ∀ o : Nat, a.addr = s.cfg.regBase + o →
    ((a.bits ≠ 32 ∧ a.bits ≠ 64) ∨ o % (a.bits / 8) ≠ 0 ∨ (a.bits = 64 ∧ o ≠ 0) ∨
        (a.bits = 32 ∧ (o = 0 ∨ o = 4)) ∨ 0x7FFFF < o →
      step s = .next { s with inputs := rest, outputs := s.outputs ++ [.response m .busError] }) ∧
    (a.wf = true → ¬ ((a.bits ≠ 32 ∧ a.bits ≠ 64) ∨ o % (a.bits / 8) ≠ 0 ∨ (a.bits = 64 ∧ o ≠ 0) ∨
        (a.bits = 32 ∧ (o = 0 ∨ o = 4)) ∨ 0x7FFFF < o) →
      (∃ t r, step s = .next t ∧ t.outputs = s.outputs ++ [.response m r] ∧ r ≠ .busError) ∨
      ((∃ arg, s.RunsCommand (.arm arg)) ∧ step s = .refused .regionNotBacked))

/-- R143, R145, R26: what a 32-bit read returns at each offset, and that it changes nothing but the response given. -/
def Obligations.ReadsReturnRegisters : Prop :=
  ∀ (s : State) (m o : Nat) (v : Word) (rest : List Input),
    s.inputs = .host m (.rd32 (s.cfg.regBase + o)) :: rest →
    ((o = 0x00008 ∧ v.toNat = s.result.code.toNat + 4 * s.sched.code.toNat +
        16 * (if s.sched = .armed then 1 else 0) + 32 * (if s.sched = .halted then 1 else 0)) ∨
     (o = 0x0000C ∧ v = BitVec.ofNat 32 s.table.length) ∨
     (o = 0x00010 ∧ v = s.regs.rate) ∨ (o = 0x00014 ∧ v = s.regs.period) ∨
     (o = 0x00018 ∧ v = s.regs.bytes) ∨ (o = 0x0001C ∧ v = s.regs.base) ∨
     (o = 0x00020 ∧ v = s.cursor) ∨ (o = 0x00024 ∧ v.toNat = s.cursor.toNat / 4) ∨
     (o = 0x00028 ∧ v = s.periodCount) ∨ (o = 0x0002C ∧ v = BitVec.ofNat 32 s.cfg.tableCapacity) ∨
     (∃ i, o = 0x40000 + 4 * i ∧ i < s.cfg.tableCapacity ∧ o ≤ 0x7FFFC ∧ v = (s.table[i]?).getD 0) ∨
     (0x00030 ≤ o ∧ o ≤ 0x3FFFC ∧ o % 4 = 0 ∧ v = 0) ∨
     (∃ i, o = 0x40000 + 4 * i ∧ s.cfg.tableCapacity ≤ i ∧ o ≤ 0x7FFFC ∧ v = 0)) →
    step s = .next { s with inputs := rest, outputs := s.outputs ++ [.response m (.okayValue32 v)] }

/-- R143, R144, R145: a 32-bit write sets one of the four configuration registers, in every scheduler state, and nothing
else; at every other 4-aligned offset outside CMD it changes nothing. Both respond OKAY. -/
def Obligations.WritesSetConfigurationOnly : Prop :=
  ∀ (s : State) (m o : Nat) (v : Word) (p : StreamParams) (rest : List Input),
    s.inputs = .host m (.wr32 (s.cfg.regBase + o) v) :: rest →
    ((o = 0x00010 ∧ p = { s.regs with rate := v }) ∨ (o = 0x00014 ∧ p = { s.regs with period := v }) ∨
     (o = 0x00018 ∧ p = { s.regs with bytes := v }) ∨ (o = 0x0001C ∧ p = { s.regs with base := v }) ∨
     (8 ≤ o ∧ o ≤ 0x7FFFC ∧ o % 4 = 0 ∧ o ≠ 0x00010 ∧ o ≠ 0x00014 ∧ o ≠ 0x00018 ∧ o ≠ 0x0001C ∧ p = s.regs)) →
    step s = .next { s with inputs := rest, regs := p, outputs := s.outputs ++ [.response m .okay] }

/-- R25, R142: a 64-bit read of CMD returns 0 and has no side effect. -/
def Obligations.CmdReadsZero : Prop :=
  ∀ (s : State) (m : Nat) (rest : List Input), s.inputs = .host m (.rd64 s.cfg.regBase) :: rest →
    step s = .next { s with inputs := rest, outputs := s.outputs ++ [.response m (.okayValue64 0)] }

/-- R10: "No register is banked or aliased": two offsets of the block name two registers. -/
def Obligations.NoRegisterAliased : Prop :=
  ∀ (c : Config) (o o' : Nat), o % 4 = 0 → o' % 4 = 0 → regAt c o = regAt c o' → o = o'

/-- R12: the fields of STATUS. RESULT is never 3, STATE, RUNNING and FATAL agree, and bits [31:6] read as 0. -/
def Obligations.StatusFields : Prop :=
  ∀ s : State,
    (statusWord s).extractLsb' 6 26 = 0#26 ∧
    (statusWord s).extractLsb' 0 2 = (match s.result with | .ok => 0#2 | .outOfMemory => 1#2 | .invalidCommand => 2#2) ∧
    (statusWord s).extractLsb' 2 2 =
      (match s.sched with | .idle => 0#2 | .armed => 1#2 | .stopped => 2#2 | .halted => 3#2) ∧
    ((statusWord s)[4] = true ↔ s.sched = .armed) ∧ ((statusWord s)[5] = true ↔ s.sched = .halted)

/-- R128, R127(a): where the cursor is frame-aligned, as the invariant says it always is, POSITION times 4 is CURSOR. -/
def Obligations.PositionIsExact : Prop :=
  ∀ s : State, s.Inv → 4 * (readReg s .position).toNat = s.cursor.toNat

/-- R180: reset puts every element of the block's state at its reset value, from every state, HALTED among them; sample
memory is unchanged. That the parameters, the later inputs and the outputs stay is the model's (log 15). -/
def Obligations.ResetValues : Prop :=
  ∀ (s : State) (rest : List Input), s.inputs = .reset :: rest →
    ∃ t, step s = .next t ∧ t.table = [] ∧ t.sched = .idle ∧ t.result = .ok ∧ t.cursor = 0 ∧ t.periodCount = 0 ∧
      t.regs = ⟨0, 0, 0, 0⟩ ∧ t.lat = ⟨0, 0, 0, 0⟩ ∧ readReg t .status = 0 ∧
      readReg t .tableCap = BitVec.ofNat 32 s.cfg.tableCapacity ∧ t.mem = s.mem ∧ t.history = [] ∧
      t.cfg = s.cfg ∧ t.inputs = rest ∧ t.outputs = s.outputs

/-! ## The consumer -/

/-- R47, R40(b), I10: at every address of the sample space, backed or not, the consumer sees the latest byte written there,
or the launch value if none, of which nothing is known (log 5); its read changes nothing of the block. -/
def Obligations.ConsumerSeesLatestBytes : Prop :=
  ∀ (s : State) (addr n : Nat) (rest : List Input), s.inputs = .consumer addr n :: rest →
    addr + n ≤ s.cfg.sampleSpace →
    ∃ bs : List Byte, bs.length = n ∧
      (∀ k, k < n → bs[k]? = some ((Memory.read s.mem (addr + k)).getD (Config.launchByte (addr + k)))) ∧
      step s = .next { s with inputs := rest, outputs := s.outputs ++ [.consumed addr bs] }

/-- The model's one fault (log 7): a consumer's read faults exactly when it leaves the sample space, where no address
exists (R40(b)). -/
def Obligations.ConsumerStopsOnlyOutside : Prop :=
  ∀ (s : State) (addr n : Nat) (rest : List Input), s.inputs = .consumer addr n :: rest →
    (s.cfg.sampleSpace < addr + n → step s = .fault .sampleAddressOutside) ∧
    (addr + n ≤ s.cfg.sampleSpace → ∃ t, step s = .next t)

/-! ## Outcomes of a step, and the end of a run -/

/-- R6, R54, I15, I18: how a step can end. It faults only where the consumer reads an address that does not exist (log 7);
it is refused only for a region that is not backed, at the ARM that would start the stream or at a TICK while ARMED (log 6),
and for a fill with latched rate 0 (log 8); every other step gives a next state. -/
def Obligations.StepOutcomes : Prop :=
  ∀ s : State,
    (∀ r, step s = .fault r ↔ ∃ addr n rest, s.inputs = .consumer addr n :: rest ∧ s.cfg.sampleSpace < addr + n) ∧
    (∀ r, step s = .refused r ↔
      (r = .regionNotBacked ∧
        ((s.RunsTick ∧ s.sched = .armed ∧ ¬ s.RegionBacked) ∨
         ((∃ arg, s.RunsCommand (.arm arg)) ∧ (s.sched = .idle ∨ s.sched = .stopped) ∧
          s.regs.rate ≠ 0 ∧ s.regs.period ≠ 0 ∧ s.regs.base.extractLsb' 0 2 = 0#2 ∧
          s.regs.base.toNat + s.regs.bytes.toNat ≤ 2 ^ s.cfg.sampleAddrBits ∧
          backed s.cfg s.regs.base.toNat s.regs.bytes.toNat = false))) ∨
      (r = .zeroRateLaunch ∧ s.RunsTick ∧ s.sched = .armed ∧ s.RegionBacked ∧
        s.cursor.toNat < s.lat.bytes.toNat ∧ 4 * s.lat.period.toNat ≤ s.lat.bytes.toNat - s.cursor.toNat ∧
        s.lat.rate = 0))

/-- R191(a): once the last host access has responded in IDLE or STOPPED, whatever ticks, reads and resets are left keep it so,
with FATAL = 0 and sample memory as it is. -/
def Obligations.EndedStaysEnded : Prop :=
  ∀ (k : Nat) (s t : State), s.Ended → runSteps k s = .next t → t.Ended ∧ ¬ t.FatalOutcome ∧ t.mem = s.mem

/-- R191(a): a program whose last access is STOP ends with that access's response, in IDLE or STOPPED, from every state that
is not HALTED. -/
def Obligations.StopEndsTheRun : Prop :=
  ∀ (s : State) (m : Nat) (arg : Word) (rest : List Input),
    s.inputs = .host m (.wr64 (s.cfg.hostAddress cmdOffset) (encode (.stop arg))) :: rest →
    (∀ i ∈ rest, i.isHost = false) → s.sched ≠ .halted →
    ∃ t, step s = .next t ∧ t.Ended ∧ s.LastResponded t ∧
      t.outputs = s.outputs ++ [.response m (.okayResult .ok)]

/-- R191(b): a block that is ARMED over a region that is not empty, its accesses done, reaches the end after exactly `n`
further TICK events for every `n`, which is `n` ticks on and still ARMED. With no input left these are its pending ticks
(log 1). -/
def Obligations.EndsAfterEveryTickCount : Prop :=
  ∀ (n : Nat) (s : State), s.Inv → s.sched = .armed → 0 < s.lat.bytes.toNat → s.inputs = [] →
    ∃ t, runTicks n s = .next t ∧ s.EndsAfterTicks n t ∧ t.sched = .armed
end

