-- ==== Sys2Proof/Laws/State.lean ====
section
/-! SUPPORT. One lemma per field per update of `State`, each true by `rfl`. -/

namespace Sys2Proof.Machine

variable (s : State)

/-! ### setTable -/

@[simp] theorem setTable_cfg (t : List Word) : (s.setTable t).cfg = s.cfg := rfl
@[simp] theorem setTable_table (t : List Word) : (s.setTable t).table = t := rfl
@[simp] theorem setTable_regs (t : List Word) : (s.setTable t).regs = s.regs := rfl
@[simp] theorem setTable_lat (t : List Word) : (s.setTable t).lat = s.lat := rfl
@[simp] theorem setTable_sched (t : List Word) : (s.setTable t).sched = s.sched := rfl
@[simp] theorem setTable_cursor (t : List Word) : (s.setTable t).cursor = s.cursor := rfl
@[simp] theorem setTable_periodCount (t : List Word) : (s.setTable t).periodCount = s.periodCount := rfl
@[simp] theorem setTable_result (t : List Word) : (s.setTable t).result = s.result := rfl
@[simp] theorem setTable_mem (t : List Word) : (s.setTable t).mem = s.mem := rfl
@[simp] theorem setTable_history (t : List Word) : (s.setTable t).history = s.history := rfl
@[simp] theorem setTable_inputs (t : List Word) : (s.setTable t).inputs = s.inputs := rfl
@[simp] theorem setTable_outputs (t : List Word) : (s.setTable t).outputs = s.outputs := rfl

/-! ### setRegs -/

@[simp] theorem setRegs_cfg (p : StreamParams) : (s.setRegs p).cfg = s.cfg := rfl
@[simp] theorem setRegs_table (p : StreamParams) : (s.setRegs p).table = s.table := rfl
@[simp] theorem setRegs_regs (p : StreamParams) : (s.setRegs p).regs = p := rfl
@[simp] theorem setRegs_lat (p : StreamParams) : (s.setRegs p).lat = s.lat := rfl
@[simp] theorem setRegs_sched (p : StreamParams) : (s.setRegs p).sched = s.sched := rfl
@[simp] theorem setRegs_cursor (p : StreamParams) : (s.setRegs p).cursor = s.cursor := rfl
@[simp] theorem setRegs_periodCount (p : StreamParams) : (s.setRegs p).periodCount = s.periodCount := rfl
@[simp] theorem setRegs_result (p : StreamParams) : (s.setRegs p).result = s.result := rfl
@[simp] theorem setRegs_mem (p : StreamParams) : (s.setRegs p).mem = s.mem := rfl
@[simp] theorem setRegs_history (p : StreamParams) : (s.setRegs p).history = s.history := rfl
@[simp] theorem setRegs_inputs (p : StreamParams) : (s.setRegs p).inputs = s.inputs := rfl
@[simp] theorem setRegs_outputs (p : StreamParams) : (s.setRegs p).outputs = s.outputs := rfl

/-! ### setLat -/

@[simp] theorem setLat_cfg (p : StreamParams) : (s.setLat p).cfg = s.cfg := rfl
@[simp] theorem setLat_table (p : StreamParams) : (s.setLat p).table = s.table := rfl
@[simp] theorem setLat_regs (p : StreamParams) : (s.setLat p).regs = s.regs := rfl
@[simp] theorem setLat_lat (p : StreamParams) : (s.setLat p).lat = p := rfl
@[simp] theorem setLat_sched (p : StreamParams) : (s.setLat p).sched = s.sched := rfl
@[simp] theorem setLat_cursor (p : StreamParams) : (s.setLat p).cursor = s.cursor := rfl
@[simp] theorem setLat_periodCount (p : StreamParams) : (s.setLat p).periodCount = s.periodCount := rfl
@[simp] theorem setLat_result (p : StreamParams) : (s.setLat p).result = s.result := rfl
@[simp] theorem setLat_mem (p : StreamParams) : (s.setLat p).mem = s.mem := rfl
@[simp] theorem setLat_history (p : StreamParams) : (s.setLat p).history = s.history := rfl
@[simp] theorem setLat_inputs (p : StreamParams) : (s.setLat p).inputs = s.inputs := rfl
@[simp] theorem setLat_outputs (p : StreamParams) : (s.setLat p).outputs = s.outputs := rfl

/-! ### setSched -/

@[simp] theorem setSched_cfg (x : SchedState) : (s.setSched x).cfg = s.cfg := rfl
@[simp] theorem setSched_table (x : SchedState) : (s.setSched x).table = s.table := rfl
@[simp] theorem setSched_regs (x : SchedState) : (s.setSched x).regs = s.regs := rfl
@[simp] theorem setSched_lat (x : SchedState) : (s.setSched x).lat = s.lat := rfl
@[simp] theorem setSched_sched (x : SchedState) : (s.setSched x).sched = x := rfl
@[simp] theorem setSched_cursor (x : SchedState) : (s.setSched x).cursor = s.cursor := rfl
@[simp] theorem setSched_periodCount (x : SchedState) : (s.setSched x).periodCount = s.periodCount := rfl
@[simp] theorem setSched_result (x : SchedState) : (s.setSched x).result = s.result := rfl
@[simp] theorem setSched_mem (x : SchedState) : (s.setSched x).mem = s.mem := rfl
@[simp] theorem setSched_history (x : SchedState) : (s.setSched x).history = s.history := rfl
@[simp] theorem setSched_inputs (x : SchedState) : (s.setSched x).inputs = s.inputs := rfl
@[simp] theorem setSched_outputs (x : SchedState) : (s.setSched x).outputs = s.outputs := rfl

/-! ### setCursor -/

@[simp] theorem setCursor_cfg (c : Word) : (s.setCursor c).cfg = s.cfg := rfl
@[simp] theorem setCursor_table (c : Word) : (s.setCursor c).table = s.table := rfl
@[simp] theorem setCursor_regs (c : Word) : (s.setCursor c).regs = s.regs := rfl
@[simp] theorem setCursor_lat (c : Word) : (s.setCursor c).lat = s.lat := rfl
@[simp] theorem setCursor_sched (c : Word) : (s.setCursor c).sched = s.sched := rfl
@[simp] theorem setCursor_cursor (c : Word) : (s.setCursor c).cursor = c := rfl
@[simp] theorem setCursor_periodCount (c : Word) : (s.setCursor c).periodCount = s.periodCount := rfl
@[simp] theorem setCursor_result (c : Word) : (s.setCursor c).result = s.result := rfl
@[simp] theorem setCursor_mem (c : Word) : (s.setCursor c).mem = s.mem := rfl
@[simp] theorem setCursor_history (c : Word) : (s.setCursor c).history = s.history := rfl
@[simp] theorem setCursor_inputs (c : Word) : (s.setCursor c).inputs = s.inputs := rfl
@[simp] theorem setCursor_outputs (c : Word) : (s.setCursor c).outputs = s.outputs := rfl

/-! ### setPeriodCount -/

@[simp] theorem setPeriodCount_cfg (n : Word) : (s.setPeriodCount n).cfg = s.cfg := rfl
@[simp] theorem setPeriodCount_table (n : Word) : (s.setPeriodCount n).table = s.table := rfl
@[simp] theorem setPeriodCount_regs (n : Word) : (s.setPeriodCount n).regs = s.regs := rfl
@[simp] theorem setPeriodCount_lat (n : Word) : (s.setPeriodCount n).lat = s.lat := rfl
@[simp] theorem setPeriodCount_sched (n : Word) : (s.setPeriodCount n).sched = s.sched := rfl
@[simp] theorem setPeriodCount_cursor (n : Word) : (s.setPeriodCount n).cursor = s.cursor := rfl
@[simp] theorem setPeriodCount_periodCount (n : Word) : (s.setPeriodCount n).periodCount = n := rfl
@[simp] theorem setPeriodCount_result (n : Word) : (s.setPeriodCount n).result = s.result := rfl
@[simp] theorem setPeriodCount_mem (n : Word) : (s.setPeriodCount n).mem = s.mem := rfl
@[simp] theorem setPeriodCount_history (n : Word) : (s.setPeriodCount n).history = s.history := rfl
@[simp] theorem setPeriodCount_inputs (n : Word) : (s.setPeriodCount n).inputs = s.inputs := rfl
@[simp] theorem setPeriodCount_outputs (n : Word) : (s.setPeriodCount n).outputs = s.outputs := rfl

/-! ### setResult -/

@[simp] theorem setResult_cfg (r : CmdResult) : (s.setResult r).cfg = s.cfg := rfl
@[simp] theorem setResult_table (r : CmdResult) : (s.setResult r).table = s.table := rfl
@[simp] theorem setResult_regs (r : CmdResult) : (s.setResult r).regs = s.regs := rfl
@[simp] theorem setResult_lat (r : CmdResult) : (s.setResult r).lat = s.lat := rfl
@[simp] theorem setResult_sched (r : CmdResult) : (s.setResult r).sched = s.sched := rfl
@[simp] theorem setResult_cursor (r : CmdResult) : (s.setResult r).cursor = s.cursor := rfl
@[simp] theorem setResult_periodCount (r : CmdResult) : (s.setResult r).periodCount = s.periodCount := rfl
@[simp] theorem setResult_result (r : CmdResult) : (s.setResult r).result = r := rfl
@[simp] theorem setResult_mem (r : CmdResult) : (s.setResult r).mem = s.mem := rfl
@[simp] theorem setResult_history (r : CmdResult) : (s.setResult r).history = s.history := rfl
@[simp] theorem setResult_inputs (r : CmdResult) : (s.setResult r).inputs = s.inputs := rfl
@[simp] theorem setResult_outputs (r : CmdResult) : (s.setResult r).outputs = s.outputs := rfl

/-! ### setMem -/

@[simp] theorem setMem_cfg (m : Memory) : (s.setMem m).cfg = s.cfg := rfl
@[simp] theorem setMem_table (m : Memory) : (s.setMem m).table = s.table := rfl
@[simp] theorem setMem_regs (m : Memory) : (s.setMem m).regs = s.regs := rfl
@[simp] theorem setMem_lat (m : Memory) : (s.setMem m).lat = s.lat := rfl
@[simp] theorem setMem_sched (m : Memory) : (s.setMem m).sched = s.sched := rfl
@[simp] theorem setMem_cursor (m : Memory) : (s.setMem m).cursor = s.cursor := rfl
@[simp] theorem setMem_periodCount (m : Memory) : (s.setMem m).periodCount = s.periodCount := rfl
@[simp] theorem setMem_result (m : Memory) : (s.setMem m).result = s.result := rfl
@[simp] theorem setMem_mem (m : Memory) : (s.setMem m).mem = m := rfl
@[simp] theorem setMem_history (m : Memory) : (s.setMem m).history = s.history := rfl
@[simp] theorem setMem_inputs (m : Memory) : (s.setMem m).inputs = s.inputs := rfl
@[simp] theorem setMem_outputs (m : Memory) : (s.setMem m).outputs = s.outputs := rfl

/-! ### record -/

@[simp] theorem record_cfg (e : HistoryEvent) : (s.record e).cfg = s.cfg := rfl
@[simp] theorem record_table (e : HistoryEvent) : (s.record e).table = s.table := rfl
@[simp] theorem record_regs (e : HistoryEvent) : (s.record e).regs = s.regs := rfl
@[simp] theorem record_lat (e : HistoryEvent) : (s.record e).lat = s.lat := rfl
@[simp] theorem record_sched (e : HistoryEvent) : (s.record e).sched = s.sched := rfl
@[simp] theorem record_cursor (e : HistoryEvent) : (s.record e).cursor = s.cursor := rfl
@[simp] theorem record_periodCount (e : HistoryEvent) : (s.record e).periodCount = s.periodCount := rfl
@[simp] theorem record_result (e : HistoryEvent) : (s.record e).result = s.result := rfl
@[simp] theorem record_mem (e : HistoryEvent) : (s.record e).mem = s.mem := rfl
@[simp] theorem record_history (e : HistoryEvent) : (s.record e).history = s.history ++ [e] := rfl
@[simp] theorem record_inputs (e : HistoryEvent) : (s.record e).inputs = s.inputs := rfl
@[simp] theorem record_outputs (e : HistoryEvent) : (s.record e).outputs = s.outputs := rfl

/-! ### setInputs -/

@[simp] theorem setInputs_cfg (l : List Input) : (s.setInputs l).cfg = s.cfg := rfl
@[simp] theorem setInputs_table (l : List Input) : (s.setInputs l).table = s.table := rfl
@[simp] theorem setInputs_regs (l : List Input) : (s.setInputs l).regs = s.regs := rfl
@[simp] theorem setInputs_lat (l : List Input) : (s.setInputs l).lat = s.lat := rfl
@[simp] theorem setInputs_sched (l : List Input) : (s.setInputs l).sched = s.sched := rfl
@[simp] theorem setInputs_cursor (l : List Input) : (s.setInputs l).cursor = s.cursor := rfl
@[simp] theorem setInputs_periodCount (l : List Input) : (s.setInputs l).periodCount = s.periodCount := rfl
@[simp] theorem setInputs_result (l : List Input) : (s.setInputs l).result = s.result := rfl
@[simp] theorem setInputs_mem (l : List Input) : (s.setInputs l).mem = s.mem := rfl
@[simp] theorem setInputs_history (l : List Input) : (s.setInputs l).history = s.history := rfl
@[simp] theorem setInputs_inputs (l : List Input) : (s.setInputs l).inputs = l := rfl
@[simp] theorem setInputs_outputs (l : List Input) : (s.setInputs l).outputs = s.outputs := rfl

/-! ### output -/

@[simp] theorem output_cfg (o : Output) : (s.output o).cfg = s.cfg := rfl
@[simp] theorem output_table (o : Output) : (s.output o).table = s.table := rfl
@[simp] theorem output_regs (o : Output) : (s.output o).regs = s.regs := rfl
@[simp] theorem output_lat (o : Output) : (s.output o).lat = s.lat := rfl
@[simp] theorem output_sched (o : Output) : (s.output o).sched = s.sched := rfl
@[simp] theorem output_cursor (o : Output) : (s.output o).cursor = s.cursor := rfl
@[simp] theorem output_periodCount (o : Output) : (s.output o).periodCount = s.periodCount := rfl
@[simp] theorem output_result (o : Output) : (s.output o).result = s.result := rfl
@[simp] theorem output_mem (o : Output) : (s.output o).mem = s.mem := rfl
@[simp] theorem output_history (o : Output) : (s.output o).history = s.history := rfl
@[simp] theorem output_inputs (o : Output) : (s.output o).inputs = s.inputs := rfl
@[simp] theorem output_outputs (o : Output) : (s.output o).outputs = s.outputs ++ [o] := rfl

/-! ### respond -/

@[simp] theorem respond_cfg (m : Nat) (r : Response) : (s.respond m r).cfg = s.cfg := rfl
@[simp] theorem respond_table (m : Nat) (r : Response) : (s.respond m r).table = s.table := rfl
@[simp] theorem respond_regs (m : Nat) (r : Response) : (s.respond m r).regs = s.regs := rfl
@[simp] theorem respond_lat (m : Nat) (r : Response) : (s.respond m r).lat = s.lat := rfl
@[simp] theorem respond_sched (m : Nat) (r : Response) : (s.respond m r).sched = s.sched := rfl
@[simp] theorem respond_cursor (m : Nat) (r : Response) : (s.respond m r).cursor = s.cursor := rfl
@[simp] theorem respond_periodCount (m : Nat) (r : Response) : (s.respond m r).periodCount = s.periodCount := rfl
@[simp] theorem respond_result (m : Nat) (r : Response) : (s.respond m r).result = s.result := rfl
@[simp] theorem respond_mem (m : Nat) (r : Response) : (s.respond m r).mem = s.mem := rfl
@[simp] theorem respond_history (m : Nat) (r : Response) : (s.respond m r).history = s.history := rfl
@[simp] theorem respond_inputs (m : Nat) (r : Response) : (s.respond m r).inputs = s.inputs := rfl
@[simp] theorem respond_outputs (m : Nat) (r : Response) : (s.respond m r).outputs = s.outputs ++ [.response m r] := rfl

/-! ### memWrite -/

@[simp] theorem memWrite_cfg (a n : Nat) (v : Word) : (s.memWrite a n v).cfg = s.cfg := rfl
@[simp] theorem memWrite_table (a n : Nat) (v : Word) : (s.memWrite a n v).table = s.table := rfl
@[simp] theorem memWrite_regs (a n : Nat) (v : Word) : (s.memWrite a n v).regs = s.regs := rfl
@[simp] theorem memWrite_lat (a n : Nat) (v : Word) : (s.memWrite a n v).lat = s.lat := rfl
@[simp] theorem memWrite_sched (a n : Nat) (v : Word) : (s.memWrite a n v).sched = s.sched := rfl
@[simp] theorem memWrite_cursor (a n : Nat) (v : Word) : (s.memWrite a n v).cursor = s.cursor := rfl
@[simp] theorem memWrite_periodCount (a n : Nat) (v : Word) : (s.memWrite a n v).periodCount = s.periodCount := rfl
@[simp] theorem memWrite_result (a n : Nat) (v : Word) : (s.memWrite a n v).result = s.result := rfl
@[simp] theorem memWrite_mem (a n : Nat) (v : Word) : (s.memWrite a n v).mem = Memory.writeBytes s.mem a (littleEndianBytes n v.toNat) := rfl
@[simp] theorem memWrite_history (a n : Nat) (v : Word) : (s.memWrite a n v).history = s.history ++ [.sampleWrite a n v] := rfl
@[simp] theorem memWrite_inputs (a n : Nat) (v : Word) : (s.memWrite a n v).inputs = s.inputs := rfl
@[simp] theorem memWrite_outputs (a n : Nat) (v : Word) : (s.memWrite a n v).outputs = s.outputs := rfl

/-! ### The fatal path and reset -/

@[simp] theorem raise_cfg : (raiseInternalConsistencyViolation s).cfg = s.cfg := rfl
@[simp] theorem raise_table : (raiseInternalConsistencyViolation s).table = s.table := rfl
@[simp] theorem raise_regs : (raiseInternalConsistencyViolation s).regs = s.regs := rfl
@[simp] theorem raise_lat : (raiseInternalConsistencyViolation s).lat = s.lat := rfl
@[simp] theorem raise_sched : (raiseInternalConsistencyViolation s).sched = .halted := rfl
@[simp] theorem raise_cursor : (raiseInternalConsistencyViolation s).cursor = s.cursor := rfl
@[simp] theorem raise_periodCount : (raiseInternalConsistencyViolation s).periodCount = s.periodCount := rfl
@[simp] theorem raise_result : (raiseInternalConsistencyViolation s).result = s.result := rfl
@[simp] theorem raise_mem : (raiseInternalConsistencyViolation s).mem = s.mem := rfl
@[simp] theorem raise_history : (raiseInternalConsistencyViolation s).history = s.history := rfl
@[simp] theorem raise_inputs : (raiseInternalConsistencyViolation s).inputs = s.inputs := rfl
@[simp] theorem raise_outputs : (raiseInternalConsistencyViolation s).outputs = s.outputs := rfl

@[simp] theorem resetBlock_cfg : (resetBlock s).cfg = s.cfg := rfl
@[simp] theorem resetBlock_table : (resetBlock s).table = [] := rfl
@[simp] theorem resetBlock_regs : (resetBlock s).regs = StreamParams.zero := rfl
@[simp] theorem resetBlock_lat : (resetBlock s).lat = StreamParams.zero := rfl
@[simp] theorem resetBlock_sched : (resetBlock s).sched = .idle := rfl
@[simp] theorem resetBlock_cursor : (resetBlock s).cursor = 0 := rfl
@[simp] theorem resetBlock_periodCount : (resetBlock s).periodCount = 0 := rfl
@[simp] theorem resetBlock_result : (resetBlock s).result = .ok := rfl
@[simp] theorem resetBlock_mem : (resetBlock s).mem = s.mem := rfl
@[simp] theorem resetBlock_history : (resetBlock s).history = [] := rfl
@[simp] theorem resetBlock_inputs : (resetBlock s).inputs = s.inputs := rfl
@[simp] theorem resetBlock_outputs : (resetBlock s).outputs = s.outputs := rfl

end Sys2Proof.Machine
end

