-- ==== Sys2Proof/Laws/Codec.lean ====
section
/-! SUPPORT. What the fields of a packed descriptor are (R80, R81), said once. -/

namespace Sys2Proof.Machine

theorem trunc_lt (n : Nat) (v : Int) : trunc n v < 2 ^ n := by
  have h : (0 : Int) < (2 ^ n : Nat) := by exact_mod_cast Nat.two_pow_pos n
  have h1 := Int.emod_nonneg v (ne_of_gt h)
  have h2 := Int.emod_lt_of_pos v h
  unfold trunc
  omega

theorem trunc_of_lt {n k : Nat} (h : k < 2 ^ n) : trunc n (k : Int) = k := by
  unfold trunc
  rw [← Int.natCast_emod, Int.toNat_natCast, Nat.mod_eq_of_lt h]

@[simp] theorem trunc_ampOf (w : Word) : trunc 7 ((ampOf w).toNat : Int) = (ampOf w).toNat := trunc_of_lt (ampOf w).isLt
@[simp] theorem trunc_phaseOf (w : Word) : trunc 9 ((phaseOf w).toNat : Int) = (phaseOf w).toNat :=
  trunc_of_lt (phaseOf w).isLt
@[simp] theorem trunc_freqOf (w : Word) : trunc 16 ((freqOf w).toNat : Int) = (freqOf w).toNat :=
  trunc_of_lt (freqOf w).isLt

theorem toNat_ampOf (w : Word) : (ampOf w).toNat = w.toNat % 128 := by
  simp [ampOf, BitVec.extractLsb'_toNat]

theorem toNat_phaseOf (w : Word) : (phaseOf w).toNat = w.toNat / 128 % 512 := by
  simp [phaseOf, BitVec.extractLsb'_toNat, Nat.shiftRight_eq_div_pow]

theorem toNat_freqOf (w : Word) : (freqOf w).toNat = w.toNat / 65536 % 65536 := by
  simp [freqOf, BitVec.extractLsb'_toNat, Nat.shiftRight_eq_div_pow]

theorem toNat_encodeDescriptor (a p f : Int) :
    (encodeDescriptor a p f).toNat = trunc 7 a + 2 ^ 7 * trunc 9 p + 2 ^ 16 * trunc 16 f := by
  have h1 := trunc_lt 7 a
  have h2 := trunc_lt 9 p
  have h3 := trunc_lt 16 f
  simp only [encodeDescriptor, BitVec.toNat_ofNat]
  rw [Nat.mod_eq_of_lt]
  omega

end Sys2Proof.Machine
end

