-- ==== Sys2Proof/Laws/Memory.lean ====
section
/-! SUPPORT. The laws of sample memory: reading after writing, and the canonical form that every operation keeps. -/

namespace Sys2Proof.Machine

theorem Memory.read_write_same (m : Memory) (x : Nat) (v : Byte) : Memory.read (Memory.write m x v) x = some v := by
  induction m with
  | nil => simp [Memory.write, Memory.read]
  | cons c m ih =>
    obtain ⟨a, b⟩ := c
    simp only [Memory.write]
    split
    · simp [Memory.read]
    · split
      · simp [Memory.read]
      · simp [Memory.read, *]

theorem Memory.read_write_other (m : Memory) {x y : Nat} (v : Byte) (h : y ≠ x) :
    Memory.read (Memory.write m x v) y = Memory.read m y := by
  induction m with
  | nil => simp [Memory.write, Memory.read, h]
  | cons c m ih =>
    obtain ⟨a, b⟩ := c
    simp only [Memory.write]
    split
    · simp only [Memory.read, h, if_false]
      split
      · rw [if_neg (by omega), if_pos (by omega)]
      · rfl
    · split
      · subst_vars; simp [Memory.read, h]
      · simp [Memory.read, ih]

theorem Memory.allAbove_write {a : Nat} (m : Memory) {x : Nat} (v : Byte) (hx : a < x)
    (hm : Memory.allAbove a m = true) : Memory.allAbove a (Memory.write m x v) = true := by
  induction m with
  | nil => simp [Memory.write, Memory.allAbove, hx]
  | cons c m ih =>
    obtain ⟨b, w⟩ := c
    simp only [Memory.allAbove, Bool.and_eq_true, decide_eq_true_eq] at hm
    simp only [Memory.write]
    split
    · simp [Memory.allAbove, hx, hm]
    · split <;> simp [Memory.allAbove, hx, hm, ih]

theorem Memory.allAbove_mono {a b : Nat} (h : a ≤ b) (m : Memory) (hm : Memory.allAbove b m = true) :
    Memory.allAbove a m = true := by
  induction m with
  | nil => rfl
  | cons c m ih =>
    simp only [Memory.allAbove, Bool.and_eq_true, decide_eq_true_eq] at hm ⊢
    exact ⟨by omega, ih hm.2⟩

/-- Writing a byte keeps the canonical form. -/
theorem Memory.wf_write (m : Memory) (x : Nat) (v : Byte) (hm : Memory.wf m = true) :
    Memory.wf (Memory.write m x v) = true := by
  induction m with
  | nil => simp [Memory.write, Memory.wf, Memory.allAbove]
  | cons c m ih =>
    obtain ⟨a, b⟩ := c
    simp only [Memory.wf, Bool.and_eq_true] at hm
    simp only [Memory.write]
    split
    · rename_i h
      simp [Memory.wf, Memory.allAbove, hm, h, Memory.allAbove_mono (Nat.le_of_lt h) m hm.1]
    · split
      · subst_vars; simp [Memory.wf, hm]
      · have hx : a < x := by omega
        simp [Memory.wf, ih hm.2, Memory.allAbove_write m v hx hm.1]

/-- Writing a byte below `n` keeps every listed address below `n`. -/
theorem Memory.below_write {n : Nat} (m : Memory) {x : Nat} (v : Byte) (hx : x < n)
    (hm : Memory.below n m = true) : Memory.below n (Memory.write m x v) = true := by
  induction m with
  | nil => simp [Memory.write, Memory.below, hx]
  | cons c m ih =>
    obtain ⟨a, b⟩ := c
    simp only [Memory.below, Bool.and_eq_true, decide_eq_true_eq] at hm
    simp only [Memory.write]
    split
    · simp [Memory.below, hx, hm]
    · split <;> simp [Memory.below, hx, hm, ih]

/-- Writing consecutive bytes keeps the canonical form. -/
theorem Memory.wf_writeBytes (bs : List Byte) (m : Memory) (a : Nat) (hm : Memory.wf m = true) :
    Memory.wf (Memory.writeBytes m a bs) = true := by
  induction bs generalizing m a with
  | nil => exact hm
  | cons b bs ih => exact ih _ _ (Memory.wf_write _ _ _ hm)

theorem Memory.below_writeBytes {n : Nat} (bs : List Byte) (m : Memory) (a : Nat) (ha : a + bs.length ≤ n)
    (hm : Memory.below n m = true) : Memory.below n (Memory.writeBytes m a bs) = true := by
  induction bs generalizing m a with
  | nil => exact hm
  | cons b bs ih =>
    simp only [List.length_cons] at ha
    exact ih _ _ (by omega) (Memory.below_write _ _ (by omega) hm)

/-- Everything a run of byte writes does: the `k`-th byte lies at the `k`-th address, every other address is as before. -/
theorem Memory.read_writeBytes (bs : List Byte) (m : Memory) (a x : Nat) :
    Memory.read (Memory.writeBytes m a bs) x =
      if a ≤ x ∧ x < a + bs.length then bs[x - a]? else Memory.read m x := by
  induction bs generalizing m a with
  | nil => rw [if_neg (by simp only [List.length_nil]; omega)]; rfl
  | cons b bs ih =>
    simp only [Memory.writeBytes, ih, List.length_cons]
    by_cases h : x = a
    · subst h
      rw [if_neg (by omega), if_pos (by omega), Memory.read_write_same]; simp
    · rw [Memory.read_write_other _ _ h]
      by_cases h2 : a + 1 ≤ x ∧ x < a + 1 + bs.length
      · rw [if_pos h2, if_pos (by omega), show x - a = (x - (a + 1)) + 1 by omega]; simp
      · rw [if_neg h2, if_neg (by omega)]

@[simp] theorem length_littleEndianBytes (n v : Nat) : (littleEndianBytes n v).length = n := by
  induction n generalizing v with
  | zero => rfl
  | succ n ih => simp [littleEndianBytes, ih]

/-- `MemWrite` keeps the canonical form. -/
theorem memWrite_wf (s : State) (a n : Nat) (v : Word) (h : Memory.wf s.mem = true) :
    Memory.wf (s.memWrite a n v).mem = true :=
  Memory.wf_writeBytes _ _ _ h

/-- `MemWrite` inside the sample space keeps memory inside it. -/
theorem memWrite_below (s : State) {k : Nat} (a n : Nat) (v : Word) (hk : a + n ≤ k)
    (h : Memory.below k s.mem = true) : Memory.below k (s.memWrite a n v).mem = true :=
  Memory.below_writeBytes _ _ _ (by simpa using hk) h

/-- Everything `MemWrite(a, n, v)` does to a byte: bytes `a .. a + n - 1` are those of `v`, every other is as before. -/
theorem read_memWrite (s : State) (a n : Nat) (v : Word) (x : Nat) :
    Memory.read (s.memWrite a n v).mem x =
      if a ≤ x ∧ x < a + n then (littleEndianBytes n v.toNat)[x - a]? else Memory.read s.mem x := by
  simp [Memory.read_writeBytes]

/-- The memory after reset lists nothing and has the canonical form. -/
theorem reset_mem_wf : Memory.wf State.reset.mem = true := rfl

end Sys2Proof.Machine
end

