-- ==== Sys2Proof/Laws/Mixer.lean ====
section
/-! SUPPORT. What MIX (R107) and the parts of a tick (R125, R126) can do, said once. -/

namespace Sys2Proof.Machine

/-- The fields MIX leaves alone: all but the table, sample memory and the event history. -/
theorem mix_keeps (r n : Nat) : ∀ (a : Nat) (s : State),
    (mix a r n s).cfg = s.cfg ∧ (mix a r n s).regs = s.regs ∧ (mix a r n s).lat = s.lat ∧
    (mix a r n s).sched = s.sched ∧ (mix a r n s).cursor = s.cursor ∧ (mix a r n s).periodCount = s.periodCount ∧
    (mix a r n s).result = s.result ∧ (mix a r n s).inputs = s.inputs ∧ (mix a r n s).outputs = s.outputs := by
  induction n with
  | zero => intro a s; simp [mix]
  | succ n ih => intro a s; simpa [mix, mixFrame] using ih (a + frameBytes) (mixFrame a r s)

@[simp] theorem mix_cfg (a r n : Nat) (s : State) : (mix a r n s).cfg = s.cfg := (mix_keeps r n a s).1
@[simp] theorem mix_regs (a r n : Nat) (s : State) : (mix a r n s).regs = s.regs := (mix_keeps r n a s).2.1
@[simp] theorem mix_lat (a r n : Nat) (s : State) : (mix a r n s).lat = s.lat := (mix_keeps r n a s).2.2.1
@[simp] theorem mix_sched (a r n : Nat) (s : State) : (mix a r n s).sched = s.sched := (mix_keeps r n a s).2.2.2.1
@[simp] theorem mix_cursor (a r n : Nat) (s : State) : (mix a r n s).cursor = s.cursor :=
  (mix_keeps r n a s).2.2.2.2.1
@[simp] theorem mix_periodCount (a r n : Nat) (s : State) : (mix a r n s).periodCount = s.periodCount :=
  (mix_keeps r n a s).2.2.2.2.2.1
@[simp] theorem mix_result (a r n : Nat) (s : State) : (mix a r n s).result = s.result :=
  (mix_keeps r n a s).2.2.2.2.2.2.1
@[simp] theorem mix_inputs (a r n : Nat) (s : State) : (mix a r n s).inputs = s.inputs :=
  (mix_keeps r n a s).2.2.2.2.2.2.2.1
@[simp] theorem mix_outputs (a r n : Nat) (s : State) : (mix a r n s).outputs = s.outputs :=
  (mix_keeps r n a s).2.2.2.2.2.2.2.2

/-- MIX advances every entry's phase once a frame. -/
theorem mix_table (r n : Nat) : ∀ (a : Nat) (s : State),
    (mix a r n s).table = s.table.map ((advancePhase r)^[n]) := by
  induction n with
  | zero => intro a s; simp [mix]
  | succ n ih => intro a s; simp [mix, ih, mixFrame, Function.comp_def]

/-- The word of frame `k` of a MIX over table `t`: its value is formed from the phases after `k` advances. -/
def frameWordAt (c : Config) (t : List Word) (r k : Nat) : Word :=
  frameWord (frameValue c (t.map ((advancePhase r)^[k])))

theorem frameWordAt_succ (c : Config) (t : List Word) (r k : Nat) :
    frameWordAt c (t.map (advancePhase r)) r k = frameWordAt c t r (k + 1) := by
  simp [frameWordAt, Function.comp_def]

/-- MIX records its frame writes in ascending order (R47). -/
theorem mix_history (r n : Nat) : ∀ (a : Nat) (s : State),
    (mix a r n s).history =
      s.history ++ (List.range n).map fun k => .sampleWrite (a + 4 * k) 4 (frameWordAt s.cfg s.table r k) := by
  induction n with
  | zero => intro a s; simp [mix]
  | succ n ih =>
    intro a s
    simp only [mix, ih, mixFrame, memWrite_history, memWrite_table, memWrite_cfg, setTable_history, setTable_table,
      setTable_cfg, List.append_assoc, List.range_succ_eq_map, List.map_cons, List.map_map]
    refine congrArg (s.history ++ ·) (congrArg₂ List.cons ?_ (List.map_congr_left fun k _ => ?_))
    · simp [frameWordAt, frameBytes]
    · simp only [Function.comp_apply, frameWordAt_succ, frameBytes, show a + 4 + 4 * k = a + 4 * (k + 1) by omega]

/-- Every byte after a MIX: inside the `4n` bytes from `a` on, a byte of the frame it lies in; elsewhere as before. -/
theorem read_mix (r n : Nat) : ∀ (a : Nat) (s : State) (x : Nat),
    Memory.read (mix a r n s).mem x =
      if a ≤ x ∧ x < a + 4 * n then
        (littleEndianBytes 4 (frameWordAt s.cfg s.table r ((x - a) / 4)).toNat)[(x - a) % 4]?
      else Memory.read s.mem x := by
  induction n with
  | zero => intro a s x; rw [if_neg (by omega)]; rfl
  | succ n ih =>
    intro a s x
    simp only [mix, ih, mixFrame, memWrite_table, memWrite_cfg, setTable_table, setTable_cfg, frameWordAt_succ,
      frameBytes]
    by_cases h : a + 4 ≤ x ∧ x < a + 4 + 4 * n
    · rw [if_pos h, if_pos (by omega), show (x - (a + 4)) / 4 + 1 = (x - a) / 4 by omega,
        show (x - (a + 4)) % 4 = (x - a) % 4 by omega]
    · rw [if_neg h, read_memWrite]
      by_cases h2 : a ≤ x ∧ x < a + 4
      · rw [if_pos h2, if_pos (by omega), show (x - a) / 4 = 0 by omega, show (x - a) % 4 = x - a by omega]
        simp [frameWordAt]
      · rw [if_neg h2, if_neg (by omega)]; rfl

theorem mix_mem_wf (r n : Nat) : ∀ (a : Nat) (s : State), Memory.wf s.mem = true →
    Memory.wf (mix a r n s).mem = true := by
  induction n with
  | zero => intro a s h; exact h
  | succ n ih => intro a s h; exact ih _ _ (memWrite_wf _ _ _ _ h)

theorem mix_mem_below (r n : Nat) {k : Nat} : ∀ (a : Nat) (s : State), a + 4 * n ≤ k →
    Memory.below k s.mem = true → Memory.below k (mix a r n s).mem = true := by
  induction n with
  | zero => intro a s _ h; exact h
  | succ n ih =>
    intro a s hk h
    exact ih _ _ (by simp only [frameBytes]; omega) (memWrite_below _ _ _ _ (by simp only [frameBytes]; omega) h)

theorem andThen_next {o : Host.Outcome State Fault Refusal} {f : State → State} {t : State}
    (h : andThen o f = .next t) : ∃ u, o = .next u ∧ t = f u := by
  cases o with
  | next u => exact ⟨u, rfl, by simpa [andThen] using h.symm⟩
  | fault r => simp [andThen] at h
  | refused r => simp [andThen] at h

/-- Everything a fill can do where it answers a next state: its rate is not 0, and it is MIX. -/
theorem fillPeriod_next {s t : State} (h : fillPeriod s = .next t) :
    s.lat.rate ≠ 0 ∧ t = mix (mixAddress s) s.lat.rate.toNat s.lat.period.toNat s := by
  unfold fillPeriod at h
  split at h
  · cases h
  · rename_i h1; exact ⟨h1, by simpa using h.symm⟩

/-- Everything a TICK can do where it answers a next state (R125). -/
theorem execTick_next {s t : State} (h : execTick s = .next t) :
    (s.sched ≠ .armed ∧ t = s) ∨
    (s.sched = .armed ∧ regionBacked s.cfg s.lat = true ∧
      ((cursorInRegion s = false ∧ t = raiseInternalConsistencyViolation s) ∨
       (cursorInRegion s = true ∧ periodFits s = false ∧ t = advanceAndNotify s) ∨
       (cursorInRegion s = true ∧ periodFits s = true ∧ s.lat.rate ≠ 0 ∧
         t = advanceAndNotify (mix (mixAddress s) s.lat.rate.toNat s.lat.period.toNat s)))) := by
  unfold execTick at h
  split at h
  · rename_i h1; exact .inl ⟨h1, by simpa using h.symm⟩
  · rename_i h1
    split at h
    · cases h
    · rename_i hb
      refine .inr ⟨by simpa using h1, by simpa using hb, ?_⟩
      split at h
      · rename_i h2; exact .inl ⟨h2, by simpa using h.symm⟩
      · rename_i h2
        have h2 : cursorInRegion s = true := by simpa using h2
        split at h
        · rename_i h3; exact .inr (.inl ⟨h2, h3, by simpa using h.symm⟩)
        · rename_i h3
          obtain ⟨u, hu, rfl⟩ := andThen_next h
          obtain ⟨hr, rfl⟩ := fillPeriod_next hu
          exact .inr (.inr ⟨h2, by simpa using h3, hr, rfl⟩)

theorem periodBytes_eq (s : State) : periodBytes s = 4 * s.lat.period.toNat := by
  simp [periodBytes, frameBytes, Nat.mul_comm]

theorem cursorInRegion_iff (s : State) : cursorInRegion s = true ↔ s.cursor.toNat < s.lat.bytes.toNat := by
  simp [cursorInRegion]

theorem periodFits_iff (s : State) :
    periodFits s = true ↔ 4 * s.lat.period.toNat ≤ s.lat.bytes.toNat - s.cursor.toNat := by
  simp [periodFits, periodBytes_eq]

theorem inSampleSpace_iff (c : Config) (lo len : Nat) : inSampleSpace c lo len = true ↔ lo + len ≤ c.sampleSpace := by
  simp [inSampleSpace]

/-- A part of a backed range is backed. -/
theorem backed_part {c : Config} {lo len lo' len' : Nat} (h : backed c lo len = true) (h1 : lo ≤ lo')
    (h2 : lo' + len' ≤ lo + len) : backed c lo' len' = true := by
  simp only [backed, inSampleSpace, Bool.or_eq_true, Bool.and_eq_true, decide_eq_true_eq, List.any_eq_true] at h ⊢
  rcases h with h | ⟨hs, w, hw, hb⟩
  · left; omega
  · exact .inr ⟨by omega, w, hw, by omega⟩

/-- A backed range that is not empty lies in the sample space. -/
theorem backed_inside {c : Config} {lo len : Nat} (h : backed c lo len = true) (h1 : 0 < len) :
    lo + len ≤ c.sampleSpace := by
  simp only [backed, inSampleSpace, Bool.or_eq_true, Bool.and_eq_true, decide_eq_true_eq] at h
  omega

/-- An empty region needs no memory. -/
theorem regionBacked_of_empty {c : Config} {p : StreamParams} (h : p.bytes.toNat = 0) : regionBacked c p = true := by
  simp [regionBacked, backed, h]

/-- What a TICK comes to after its checks: the fill, then the end of every tick. -/
theorem execTick_of_fits {s : State} (h1 : s.sched = .armed) (hb : regionBacked s.cfg s.lat = true)
    (h2 : cursorInRegion s = true) (h3 : periodFits s = true) :
    execTick s = andThen (fillPeriod s) advanceAndNotify := by
  simp [execTick, h1, hb, h2, h3]

/-- A TICK that finds less than a period left goes straight to its end. -/
theorem execTick_of_not_fits {s : State} (h1 : s.sched = .armed) (hb : regionBacked s.cfg s.lat = true)
    (h2 : cursorInRegion s = true) (h3 : periodFits s = false) : execTick s = .next (advanceAndNotify s) := by
  simp [execTick, h1, hb, h2, h3]

/-- A TICK that finds the cursor outside the region takes the fatal path. -/
theorem execTick_of_outside {s : State} (h1 : s.sched = .armed) (hb : regionBacked s.cfg s.lat = true)
    (h2 : cursorInRegion s = false) : execTick s = .next (raiseInternalConsistencyViolation s) := by
  simp [execTick, h1, hb, h2]

/-- A TICK in a state ARMED over a region that is not backed is refused. -/
theorem execTick_of_not_backed {s : State} (h1 : s.sched = .armed) (hb : regionBacked s.cfg s.lat = false) :
    execTick s = .refused .regionNotBacked := by
  simp [execTick, h1, hb]

/-- A fill whose rate is not 0 is MIX. -/
theorem fillPeriod_of_rate {s : State} (h : s.lat.rate ≠ 0) :
    fillPeriod s = .next (mix (mixAddress s) s.lat.rate.toNat s.lat.period.toNat s) := if_neg h

/-- The cursor after a tick as a number: one period on, or 0 where that reaches the end (R126). It never wraps in 32 bits. -/
theorem toNat_nextCursor (s : State) :
    (nextCursor s).toNat = if s.lat.bytes.toNat ≤ s.cursor.toNat + 4 * s.lat.period.toNat then 0
      else s.cursor.toNat + 4 * s.lat.period.toNat := by
  have hb := s.lat.bytes.isLt
  simp only [nextCursor, periodBytes_eq]
  split
  · rfl
  · rw [BitVec.toNat_ofNat, Nat.mod_eq_of_lt (by omega)]

@[simp] theorem nextCursor_mix (a r n : Nat) (s : State) : nextCursor (mix a r n s) = nextCursor s := by
  apply BitVec.eq_of_toNat_eq
  simp only [toNat_nextCursor, mix_lat, mix_cursor]

@[simp] theorem advanceAndNotify_cfg (s : State) : (advanceAndNotify s).cfg = s.cfg := rfl
@[simp] theorem advanceAndNotify_table (s : State) : (advanceAndNotify s).table = s.table := rfl
@[simp] theorem advanceAndNotify_regs (s : State) : (advanceAndNotify s).regs = s.regs := rfl
@[simp] theorem advanceAndNotify_lat (s : State) : (advanceAndNotify s).lat = s.lat := rfl
@[simp] theorem advanceAndNotify_sched (s : State) : (advanceAndNotify s).sched = s.sched := rfl
@[simp] theorem advanceAndNotify_cursor (s : State) : (advanceAndNotify s).cursor = nextCursor s := rfl
@[simp] theorem advanceAndNotify_periodCount (s : State) : (advanceAndNotify s).periodCount = s.periodCount + 1 := rfl
@[simp] theorem advanceAndNotify_result (s : State) : (advanceAndNotify s).result = s.result := rfl
@[simp] theorem advanceAndNotify_mem (s : State) : (advanceAndNotify s).mem = s.mem := rfl
@[simp] theorem advanceAndNotify_history (s : State) :
    (advanceAndNotify s).history = s.history ++ [.periodElapsed] := rfl
@[simp] theorem advanceAndNotify_inputs (s : State) : (advanceAndNotify s).inputs = s.inputs := rfl
@[simp] theorem advanceAndNotify_outputs (s : State) : (advanceAndNotify s).outputs = s.outputs := rfl

end Sys2Proof.Machine
end

