-- ==== Sys2Proof/Laws/Bus.lean ====
section
/-! SUPPORT. What a command, a register access, a consumer's read and a step can do, said once. -/

namespace Sys2Proof.Machine

/-- Everything ADD_OSC can do (R90). -/
theorem execAddOsc_next {arg : Word} {s t : State} (h : execAddOsc arg s = .next t) :
    (s.table.length = s.cfg.tableCapacity ∧ t = s.setResult .outOfMemory) ∨
    (s.table.length ≠ s.cfg.tableCapacity ∧ t = (s.setTable (s.table ++ [arg])).setResult .ok) := by
  unfold execAddOsc at h
  split at h
  · rename_i h1; exact .inl ⟨h1, by simpa [finishCommand] using h.symm⟩
  · rename_i h1; exact .inr ⟨h1, by simpa [finishCommand, descriptorOperand] using h.symm⟩

/-- Everything REMOVE_FREQ can do (R91). -/
theorem execRemoveFreq_next {arg : Word} {s t : State} (h : execRemoveFreq arg s = .next t) :
    t = (s.setTable (survivors (keyOperand arg) s.table)).setResult .ok := by
  simpa [execRemoveFreq, finishCommand] using h.symm

/-- Everything ARM can do (R120). -/
theorem execArm_next {arg : Word} {s t : State} (h : execArm arg s = .next t) :
    t = s.setResult .invalidCommand ∨
    ((s.sched = .idle ∨ s.sched = .stopped) ∧ armParamsOk s.cfg s.regs = true ∧ regionBacked s.cfg s.regs = true ∧
      t = (armStream s).setResult .ok) := by
  unfold execArm at h
  split at h
  · exact .inl (by simpa [finishCommand] using h.symm)
  · rename_i h1
    split at h
    · exact .inl (by simpa [finishCommand] using h.symm)
    · rename_i h2
      split at h
      · cases h
      · rename_i h3
        refine .inr ⟨?_, by simpa using h2, by simpa using h3, by simpa [finishCommand] using h.symm⟩
        cases hs : s.sched <;> simp_all

/-- Everything STOP can do (R121). -/
theorem execStop_next {arg : Word} {s t : State} (h : execStop arg s = .next t) :
    (s.sched = .armed ∧ t = (s.setSched .stopped).setResult .ok) ∨ (s.sched ≠ .armed ∧ t = s.setResult .ok) := by
  unfold execStop at h
  split at h
  · rename_i h1; exact .inl ⟨h1, by simpa [finishCommand] using h.symm⟩
  · rename_i h1; exact .inr ⟨h1, by simpa [finishCommand] using h.symm⟩

/-- Everything a CMD write can do before its response (R62): an illegal word, or one of the four commands. -/
theorem runCommand_next {w : CmdWord} {s t : State} (h : runCommand w s = .next t) :
    ((∃ e, decode .host w = .error e) ∧ t = s.setResult .invalidCommand) ∨
    (∃ i, decode .host w = .ok i ∧ exec i s = .next t) := by
  unfold runCommand at h
  split at h
  · rename_i i hi; exact .inr ⟨i, hi, h⟩
  · rename_i e he; exact .inl ⟨⟨e, he⟩, by simpa [finishCommand] using h.symm⟩

/-- A configuration write changes nothing but the four configuration registers. -/
theorem writeReg_eq (s : State) (v : Word) (r : Reg) : writeReg s v r = s.setRegs (writeReg s v r).regs := by
  cases r <;> rfl

/-- Everything a host access can do (R140): a bus error, a read, a configuration write, or a command; then one response. -/
theorem hostAccess_next {m : Nat} {a : Access} {s t : State} (h : hostAccess m a s = .next t) :
    (∃ r, t = s.respond m r) ∨
    (∃ p, t = (s.setRegs p).respond m .okay) ∨
    (∃ w u, a = .wr64 (s.cfg.regBase + cmdOffset) w ∧ runCommand w s = .next u ∧ t = u.respond m (.okayResult u.result)) := by
  unfold hostAccess at h
  split at h
  · exact .inl ⟨_, by simpa using h.symm⟩
  · rename_i o ho
    split at h
    · exact .inl ⟨_, by simpa using h.symm⟩
    · rename_i hb
      cases a with
      | rd32 x => exact .inl ⟨_, by simpa [accessAt] using h.symm⟩
      | wr32 x v =>
        refine .inr (.inl ⟨(writeReg s v (regAt s.cfg o)).regs, ?_⟩)
        rw [← writeReg_eq]; simpa [accessAt] using h.symm
      | rd64 x => exact .inl ⟨_, by simpa [accessAt] using h.symm⟩
      | wr64 x w =>
        obtain ⟨u, hu, rfl⟩ := andThen_next h
        refine .inr (.inr ⟨w, u, ?_, hu, rfl⟩)
        simp only [Access.bits, Access.addr] at ho hb
        have ho' : o = cmdOffset := by
          by_contra hne
          exact hb (decide_eq_true (Or.inr (Or.inr (Or.inl ⟨rfl, hne⟩))))
        unfold regOffset at ho
        split at ho
        · cases ho
        · simp only [Option.some.injEq] at ho
          congr 1; omega
      | otherWidth b x => exact .inl ⟨_, by simpa [accessAt] using h.symm⟩

/-- Everything a consumer's read can do. -/
theorem consumerRead_next {addr n : Nat} {s t : State} (h : consumerRead addr n s = .next t) :
    t = s.output (.consumed addr (s.memRead addr n)) := by
  unfold consumerRead at h
  split at h
  · cases h
  · simpa using h.symm

/-- Everything a step can do (R44): wait, the pending tick, or its next input. -/
theorem step_next {s t : State} (h : step s = .next t) :
    (s.inputs = [] ∧ s.sched ≠ .armed ∧ t = s) ∨
    (s.inputs = [] ∧ s.sched = .armed ∧ execTick s = .next t) ∨
    (∃ i rest, s.inputs = i :: rest ∧ runInput i (s.setInputs rest) = .next t) := by
  unfold step at h
  split at h
  · rename_i hi
    unfold runPending at h
    split at h
    · rename_i hs; exact .inr (.inl ⟨hi, hs, h⟩)
    all_goals (rename_i hs; exact .inl ⟨hi, by simp [hs], by simpa using h.symm⟩)
  · rename_i i rest hi; exact .inr (.inr ⟨i, rest, hi, h⟩)

/-- R141's cases, as a proposition. -/
theorem busErrorAt_iff (bits o : Nat) : busErrorAt bits o = true ↔
    (bits ≠ 32 ∧ bits ≠ 64) ∨ o % (bits / 8) ≠ 0 ∨ (bits = 64 ∧ o ≠ 0) ∨ (bits = 32 ∧ (o = 0 ∨ o = 4)) ∨ 0x7FFFF < o := by
  simp only [busErrorAt, decide_eq_true_eq]

/-- The offset of a host address (R40(a)). -/
@[simp] theorem regOffset_add (c : Config) (o : Nat) : regOffset c (c.regBase + o) = some o := by
  simp [regOffset]

/-- An address below `REG_BASE` has no offset (log 13). -/
theorem regOffset_of_lt {c : Config} {addr : Nat} (h : addr < c.regBase) : regOffset c addr = none := if_pos h

/-- An address has offset `o` where it is `REG_BASE + o`. -/
theorem regOffset_eq_some {c : Config} {addr o : Nat} : regOffset c addr = some o ↔ addr = c.regBase + o := by
  unfold regOffset
  by_cases h : addr < c.regBase
  · rw [if_pos h]; constructor
    · intro h2; cases h2
    · omega
  · rw [if_neg h, Option.some.injEq]; omega

/-- ARM's parameter checks, as a proposition (R120). -/
theorem armParamsOk_iff (c : Config) (p : StreamParams) : armParamsOk c p = true ↔
    p.rate ≠ 0 ∧ p.period ≠ 0 ∧ p.base.extractLsb' 0 2 = 0#2 ∧ p.base.toNat + p.bytes.toNat ≤ 2 ^ c.sampleAddrBits := by
  unfold armParamsOk
  rw [Bool.and_eq_true, Bool.and_eq_true, Bool.and_eq_true, decide_eq_true_eq, decide_eq_true_eq, decide_eq_true_eq,
    decide_eq_true_eq, and_assoc, and_assoc]
  rfl

/-- A step whose next input is a host access at offset `o`: a bus error, or the access. -/
theorem step_host {s : State} {m : Nat} {a : Access} {rest : List Input} {o : Nat}
    (h : s.inputs = .host m a :: rest) (ha : a.addr = s.cfg.regBase + o) :
    step s = if busErrorAt a.bits o = true then .next ((s.setInputs rest).respond m .busError)
      else accessAt m a o (s.setInputs rest) := by
  have hr : regOffset (s.setInputs rest).cfg a.addr = some o := by rw [ha]; exact regOffset_add _ _
  simp only [step, h, runInput, hostAccess, hr]

/-- The Bool form of `State.RunsTick`. -/
theorem nextIsTick_iff (s : State) : s.nextIsTick = true ↔ s.RunsTick := by
  unfold State.nextIsTick State.RunsTick
  split <;> simp_all

end Sys2Proof.Machine
end

