-- ==== Sys2Proof/Laws/PerInstr.lean ====
section
/-! SUPPORT. Facts about every instruction as syntax, one lemma per constructor. -/

namespace Sys2Proof.Laws

/-- The word of an instruction has `RSVD = 0` and, for the four commands, its operand unchanged in `ARG` (R62, R64). -/
def WordFields.Statement (i : Instr) : Prop :=
  rsvdField (encode i) = 0#24 ∧
    argField (encode i) = match i with
      | .addOsc arg => arg
      | .removeFreq arg => arg
      | .arm arg => arg
      | .stop arg => arg
      | .tick => 0#32

theorem toNat_commandWord (op : Byte) (arg : Word) : (commandWord op arg).toNat = 2 ^ 32 * op.toNat + arg.toNat := by
  have h1 := op.isLt
  have h2 := arg.isLt
  simp only [commandWord, BitVec.toNat_ofNat]
  rw [Nat.mod_eq_of_lt]
  omega

theorem rsvdField_commandWord (op : Byte) (arg : Word) : rsvdField (commandWord op arg) = 0#24 := by
  have h1 := op.isLt
  have h2 := arg.isLt
  apply BitVec.eq_of_toNat_eq
  simp only [rsvdField, BitVec.extractLsb'_toNat, toNat_commandWord, Nat.shiftRight_eq_div_pow, BitVec.toNat_ofNat]
  omega

theorem opField_commandWord (op : Byte) (arg : Word) : opField (commandWord op arg) = op := by
  have h1 := op.isLt
  have h2 := arg.isLt
  apply BitVec.eq_of_toNat_eq
  simp only [opField, BitVec.extractLsb'_toNat, toNat_commandWord, Nat.shiftRight_eq_div_pow]
  omega

theorem argField_commandWord (op : Byte) (arg : Word) : argField (commandWord op arg) = arg := by
  have h2 := arg.isLt
  apply BitVec.eq_of_toNat_eq
  simp only [argField, BitVec.extractLsb'_toNat, toNat_commandWord, Nat.shiftRight_eq_div_pow]
  omega

theorem WordFields.addOsc (arg : Word) : WordFields.Statement (.addOsc arg) :=
  ⟨rsvdField_commandWord _ _, argField_commandWord _ _⟩

theorem WordFields.removeFreq (arg : Word) : WordFields.Statement (.removeFreq arg) :=
  ⟨rsvdField_commandWord _ _, argField_commandWord _ _⟩

theorem WordFields.arm (arg : Word) : WordFields.Statement (.arm arg) :=
  ⟨rsvdField_commandWord _ _, argField_commandWord _ _⟩

theorem WordFields.stop (arg : Word) : WordFields.Statement (.stop arg) :=
  ⟨rsvdField_commandWord _ _, argField_commandWord _ _⟩

theorem WordFields.tick : WordFields.Statement .tick := ⟨by decide, by decide⟩

end Sys2Proof.Laws
end

