-- ==== Sys2Proof/Tests/Slice0.lean ====
section
/-! SUPPORT. The model's own tests, each with its expected result from spec/ (95_test_vectors.md unless another file is
named), and a state for each obligation that meets its hypotheses. Sample values are those of the instance REF_SINE, which
R110 fixes for vectors only; no definition of the model uses it. -/

namespace Sys2Proof.Tests

open Sys2Proof.Machine

/-! ## Small blocks -/

/-- R110's four values; the vectors use no other phase. -/
def refSine : Vector Sample 360 := ((Vector.replicate 360 0#16).set 90 32767#16).set 270 0x8001#16

/-- A block with three table places and memory over the whole 32-bit sample space. -/
def wide : Config := ⟨3, 32, 0x80000000, refSine, [⟨0, 2 ^ 32⟩]⟩

/-- A block with a 16-bit sample space, of which only 0x1000 to 0x4FFF is memory. -/
def narrow : Config := ⟨3, 16, 0x80000000, refSine, [⟨0x1000, 0x4000⟩]⟩

/-- A block with four table places, for the boundaries of the TABLE window. -/
def fourPlaces : Config := ⟨4, 32, 0x80000000, refSine, [⟨0, 2 ^ 32⟩]⟩

/-- A block with the largest table (R1). -/
def largest : Config := ⟨65536, 32, 0, refSine, [⟨0, 2 ^ 32⟩]⟩

/-- A block in a scheduler state with latched parameters, a cursor and a table. -/
def block (c : Config) (x : SchedState) (lat : StreamParams) (cursor : Word) (t : List Word) : State :=
  { State.resetWith c with sched := x, lat := lat, cursor := cursor, table := t }

/-- The same with configuration registers. -/
def configured (c : Config) (x : SchedState) (regs : StreamParams) : State :=
  { State.resetWith c with sched := x, regs := regs }

/-- P3's stream: one frame a period, ten bytes. -/
def p3 : StreamParams := ⟨48000#32, 1#32, 10#32, 0x2000#32⟩

/-- P5's stream: four frames a period, 32 bytes. -/
def p5 : StreamParams := ⟨48000#32, 4#32, 32#32, 0x3000#32⟩

/-- V70's registers. -/
def v70 : StreamParams := ⟨48000#32, 240#32, 3840#32, 0x1000#32⟩

/-- A block with one host access as its only input. -/
def asked (s : State) (a : Access) : State := s.setInputs [.host 7 a]

/-- The next state, if there is one. -/
def after (o : Host.Outcome State Fault Refusal) : Option State :=
  match o with
  | .next s => some s
  | .fault _ => none
  | .refused _ => none

/-- The response that a step gives. -/
def responseOf (s : State) : Option Output := (after (step s)).bind fun t => t.outputs.getLast?

/-! ## WellFormed: a term that each check refuses -/

theorem smoke_tick_at_the_host_port : Instr.wf .host .tick = false := by decide
theorem smoke_addOsc_at_the_timer_port : Instr.wf .timer (.addOsc 0) = false := by decide
theorem smoke_removeFreq_at_the_timer_port : Instr.wf .timer (.removeFreq 0) = false := by decide
theorem smoke_arm_at_the_timer_port : Instr.wf .timer (.arm 0) = false := by decide
theorem smoke_stop_at_the_timer_port : Instr.wf .timer (.stop 0) = false := by decide
theorem smoke_other_width_32 : Access.wf (.otherWidth 32 8) = false := by decide
theorem smoke_other_width_64 : Access.wf (.otherWidth 64 0) = false := by decide
theorem smoke_capacity_zero : Config.wf { wide with tableCapacity := 0 } = false := by decide
theorem smoke_capacity_too_large : Config.wf { wide with tableCapacity := 65537 } = false := by decide
theorem smoke_address_bits_zero : Config.wf { wide with sampleAddrBits := 0 } = false := by decide
theorem smoke_address_bits_too_many : Config.wf { wide with sampleAddrBits := 33 } = false := by decide
theorem smoke_window_outside : Config.wf { narrow with windows := [⟨0xFFFF, 2⟩] } = false := by decide
theorem smoke_windows_adjacent : Config.wf { narrow with windows := [⟨0, 16⟩, ⟨16, 16⟩] } = false := by decide
theorem smoke_input_outside : Input.wf narrow (.consumer 0xFFFD 4) = false := by decide
theorem smoke_input_width : Input.wf narrow (.host 0 (.otherWidth 32 8)) = false := by decide
theorem smoke_memory_out_of_order : Memory.wf [(5, 0#8), (4, 0#8)] = false := by decide
theorem smoke_memory_repeated : Memory.wf [(5, 0#8), (5, 1#8)] = false := by decide

/-! ## Decode: words written out from R62, R63, R68 -/

/-- V20: `RSVD` = 24 zeros, `OP` = 00000001, `ARG` = 01E00064. -/
theorem test_decode_addOsc :
    decode .host 0b0000000000000000000000000000000100000001111000000000000001100100#64 =
      .ok (.addOsc 0x01E00064#32) := by rfl
/-- P1 step 14: `OP` = 00000010, `ARG` = FFFF2EE0. -/
theorem test_decode_removeFreq :
    decode .host 0b0000000000000000000000000000001011111111111111110010111011100000#64 =
      .ok (.removeFreq 0xFFFF2EE0#32) := by rfl
/-- P2 step 3: `OP` = 00000011. -/
theorem test_decode_arm :
    decode .host 0b0000000000000000000000000000001100000000000000000000000000000000#64 = .ok (.arm 0#32) := by rfl
/-- P2 step 10: `OP` = 00000100. -/
theorem test_decode_stop :
    decode .host 0b0000000000000000000000000000010000000000000000000000000000000000#64 = .ok (.stop 0#32) := by rfl
/-- R68: `OP` = 10000000, the timer's event. -/
theorem test_decode_tick :
    decode .timer 0b0000000000000000000000001000000000000000000000000000000000000000#64 = .ok .tick := by rfl
/-- R64: ARM and STOP ignore `ARG`, so it decodes with them. -/
theorem test_decode_arm_with_operand : decode .host 0x00000003FFFFFFFF#64 = .ok (.arm 0xFFFFFFFF#32) := by rfl
/-- V28, V29, V30, V31, V32 and the ends of R63's unassigned ranges. -/
theorem test_decode_rejects :
    decode .host 0x0000000500000000#64 = .error (.unassignedOp 5#8) ∧
    decode .host 0x0000000000000000#64 = .error (.unassignedOp 0#8) ∧
    decode .host 0x0000007F00000000#64 = .error (.unassignedOp 0x7F#8) ∧
    decode .host 0x0000008100000000#64 = .error (.unassignedOp 0x81#8) ∧
    decode .host 0x000000FF00000000#64 = .error (.unassignedOp 0xFF#8) ∧
    decode .host 0x0000008000000000#64 = .error .tickFromHost ∧
    decode .host 0x0000010200002EE0#64 = .error .reservedBits ∧
    decode .host 0x8000000101E00064#64 = .error .reservedBits ∧
    decode .timer 0x0000008000000001#64 = .error .notTheTickEvent := ⟨rfl, rfl, rfl, rfl, rfl, rfl, rfl, rfl, rfl⟩
/-- No two rows of the opcode map overlap: at one port, two patterns differ where both masks are set. -/
theorem test_opcode_rows_disjoint :
    opcodeRows.Pairwise (fun a b => a.source ≠ b.source ∨ (a.mask &&& b.mask) &&& (a.pattern ^^^ b.pattern) ≠ 0) := by
  decide
/-- The table words of opcode_table.json's five rows. -/
theorem test_decodeTableWord :
    decodeTableWord 64 0x0000000101E00064 = some (.addOsc 0x01E00064#32) ∧
    decodeTableWord 64 0x00000002000001E0 = some (.removeFreq 0x000001E0#32) ∧
    decodeTableWord 64 0x0000000300000000 = some (.arm 0#32) ∧
    decodeTableWord 64 0x0000000400000000 = some (.stop 0#32) ∧
    decodeTableWord 64 0x0000008000000000 = some .tick ∧
    decodeTableWord 64 0x0000000500000000 = none := ⟨rfl, rfl, rfl, rfl, rfl, rfl⟩

/-! ## Codec: V1 to V18 -/

/-- V1, V2, V4, V5, V6, V7, V8, V9, V10. -/
theorem test_encode :
    encodeDescriptor 100 0 480 = 0x01E00064#32 ∧ encodeDescriptor 100 90 12000 = 0x2EE02D64#32 ∧
    encodeDescriptor 50 90 480 = 0x01E02D32#32 ∧ encodeDescriptor 127 511 65535 = 0xFFFFFFFF#32 ∧
    encodeDescriptor (-1) 0 0 = 0x0000007F#32 ∧ encodeDescriptor 100 360 48000 = 0xBB80B464#32 ∧
    encodeDescriptor 0 270 12000 = 0x2EE08700#32 ∧ encodeDescriptor 0 400 100 = 0x0064C800#32 ∧
    encodeDescriptor 128 512 65536 = 0x00000000#32 := by decide
/-- V11, V12. -/
theorem test_decode_descriptor :
    decodeDescriptor 0x12345678#32 = (120, 172, 4660) ∧ decodeDescriptor 0xFFFFFFFF#32 = (127, 511, 65535) := by decide
/-- V13 to V18. -/
theorem test_setters :
    setAmplitude 0x01E00064#32 5 = 0x01E00005#32 ∧ setAmplitude 0x01E00064#32 200 = 0x01E00048#32 ∧
    setPhase 0x01E00064#32 359 = 0x01E0B3E4#32 ∧ setPhase 0xFFFFFFFF#32 0 = 0xFFFF007F#32 ∧
    setFrequency 0x01E00064#32 0xABCDE = 0xBCDE0064#32 ∧ setFrequency 0x2EE02D64#32 0 = 0x00002D64#32 := by decide

/-! ## Mixer pieces: V40 to V68 -/

/-- V40, V44, V45, V46, V47, V48, V50. -/
theorem test_phaseStep :
    phaseStep (encodeDescriptor 0 0 480) 48000 = 3 ∧ phaseStep (encodeDescriptor 0 0 48000) 48000 = 360 ∧
    phaseStep (encodeDescriptor 0 0 65535) 8000 = 2949 ∧ phaseStep (encodeDescriptor 0 0 1000) 44100 = 8 ∧
    phaseStep (encodeDescriptor 0 0 1000) 48000 = 7 ∧ phaseStep (encodeDescriptor 0 0 65535) 1 = 23592600 ∧
    phaseStep (encodeDescriptor 0 0 65535) 4294967295 = 0 := by decide
/-- V51, V52, V54, V55: (350, 90), (400, 0), (450, 0), (511, 2949). -/
theorem test_advancePhase :
    (phaseOf (advancePhase 48000 (encodeDescriptor 0 350 12000))).toNat = 80 ∧
    (phaseOf (advancePhase 48000 (encodeDescriptor 0 400 0))).toNat = 40 ∧
    (phaseOf (advancePhase 48000 (encodeDescriptor 0 450 0))).toNat = 90 ∧
    (phaseOf (advancePhase 8000 (encodeDescriptor 0 511 65535))).toNat = 220 := by decide
/-- V60, V64, V65, V66, and V56 with V68's amplitude: a stored phase of 450 reads `SINE_TABLE[90]`. -/
theorem test_frameValue :
    frameValue wide [] = 0 ∧
    frameValue wide [encodeDescriptor 0 180 0, encodeDescriptor 0 270 0] = -16383 ∧
    frameValue wide [encodeDescriptor 0 90 0, encodeDescriptor 1 90 0, encodeDescriptor 0 270 0] = 10922 ∧
    frameValue wide [encodeDescriptor 0 270 0, encodeDescriptor 1 270 0, encodeDescriptor 0 0 0] = -21844 ∧
    frameValue wide [encodeDescriptor 127 450 0] = 32767 := by decide

/-! ## One step of each instruction -/

/-- V21: a duplicate is legal, and is appended last. -/
theorem test_addOsc_duplicate :
    (after (exec (.addOsc 0x01E00064) (block wide .idle p3 0 [0x01E00064]))).map (fun t => (t.table, t.result)) =
      some ([0x01E00064, 0x01E00064], .ok) := by decide
/-- V120: OUT_OF_MEMORY, the table unchanged. -/
theorem test_addOsc_full :
    (after (exec (.addOsc 5) (block wide .halted p3 0 [1, 2, 3]))).map (fun t => (t.table, t.result)) =
      some ([1, 2, 3], .outOfMemory) := by decide
/-- V25: every entry of frequency 480 goes; `ARG[31:16]` is ignored. -/
theorem test_removeFreq :
    (after (exec (.removeFreq 0x010001E0) (block wide .idle p3 0 [0x01E00001, 0x01E00002, 0x01E10003]))).map
      (fun t => (t.table, t.result)) = some ([0x01E10003], .ok) := by decide
/-- L1-9: an absent frequency. -/
theorem test_removeFreq_absent :
    (after (exec (.removeFreq 1000) (block wide .idle p3 0 [0x01E00064, 0x2EE00000, 0x01E02D32]))).map
      (fun t => (t.table, t.result)) = some ([0x01E00064, 0x2EE00000, 0x01E02D32], .ok) := by decide
/-- V70: ARM latches. -/
theorem test_arm :
    (after (exec (.arm 0) (configured wide .idle v70))).map (fun t => (statusWord t, t.lat, t.cursor)) =
      some (0x14#32, v70, 0#32) := by decide
/-- V74: one byte past the sample space. R54, I18: one byte more than the memory, where the launch is refused. -/
theorem test_arm_bad_regions :
    (after (exec (.arm 0) (configured wide .idle ⟨48000, 240, 0x801, 0xFFFFF800⟩))).map (fun t => (statusWord t, t.lat)) =
      some (0x02#32, StreamParams.zero) ∧
    exec (.arm 0) (configured narrow .idle ⟨48000, 1, 0x4001, 0x1000⟩) = .refused .regionNotBacked :=
  ⟨by decide, by rfl⟩
/-- V79. -/
theorem test_stop_armed :
    (after (exec (.stop 0) (block wide .armed p3 4 []))).map (fun t => (statusWord t, t.cursor)) = some (0x08#32, 4#32) := by
  decide
/-- V81. -/
theorem test_stop_halted : (after (exec (.stop 0) (block wide .halted p3 4 []))).map statusWord = some 0x2C#32 := by decide
/-- P5 step 8: the frames, the phases and the cursor. -/
theorem test_tick_fill :
    (after (exec .tick (block wide .armed p5 0 [0x2EE00000, 0x2EE02D00]))).map (fun t => (t.table, t.cursor, t.mem.map (·.2))) =
      some ([0x2EE00000, 0x2EE02D00], 16#32,
        [0xFF#8, 0x3F#8, 0xFF#8, 0x3F#8, 0xFF#8, 0x3F#8, 0xFF#8, 0x3F#8,
         0x01#8, 0xC0#8, 0x01#8, 0xC0#8, 0x01#8, 0xC0#8, 0x01#8, 0xC0#8]) := by decide
/-- P4 step 4 and V122: the fatal path. -/
theorem test_tick_fatal :
    (after (exec .tick (block wide .armed ⟨48000, 240, 0, 0x1000⟩ 0 [0x01E00064]))).map
      (fun t => (statusWord t, t.periodCount, t.mem, t.history)) = some (0x2C#32, 0#32, [], []) := by decide
/-- R68, R62, log 2: the first step after reset runs a placed word. -/
theorem test_fetch_addOsc :
    (after (step (State.reset.withFetchWord 64 0x0000000101E00064))).map (fun t => (t.table, t.outputs)) =
      some ([0x01E00064#32], [.response 0 (.okayResult .ok)]) := by rfl
/-- V88, R68: the first step after reset runs a placed TICK, which has no effect in IDLE. -/
theorem test_fetch_tick : step (State.reset.withFetchWord 64 0x0000008000000000) = .next State.reset := by rfl

/-! ## Host accesses -/

/-- The state of V100 to V117: after P2's first TICK. -/
def afterP2Tick : State := { block wide .armed v70 960 [0x01E00064] with regs := v70, periodCount := 1 }

/-- V100, V111, V112, V110. -/
theorem test_register_reads :
    responseOf (asked afterP2Tick (.rd32 0x80000008)) = some (.response 7 (.okayValue32 0x14)) ∧
    responseOf (asked afterP2Tick (.rd32 0x80040000)) = some (.response 7 (.okayValue32 0x01E00064)) ∧
    responseOf (asked afterP2Tick (.rd32 0x80040004)) = some (.response 7 (.okayValue32 0)) ∧
    responseOf (asked afterP2Tick (.rd32 0x80000024)) = some (.response 7 (.okayValue32 240)) := by decide
/-- V101, V102, V104, V105, V106, V107, and an address below `REG_BASE` (log 13). -/
theorem test_bus_errors :
    responseOf (asked afterP2Tick (.rd32 0x80000000)) = some (.response 7 .busError) ∧
    responseOf (asked afterP2Tick (.wr32 0x80000004 1)) = some (.response 7 .busError) ∧
    responseOf (asked afterP2Tick (.rd64 0x80000008)) = some (.response 7 .busError) ∧
    responseOf (asked afterP2Tick (.rd32 0x8000000A)) = some (.response 7 .busError) ∧
    responseOf (asked afterP2Tick (.otherWidth 16 0x80000008)) = some (.response 7 .busError) ∧
    responseOf (asked afterP2Tick (.rd32 0x80080000)) = some (.response 7 .busError) ∧
    responseOf (asked afterP2Tick (.rd32 0x7FFFFFFC)) = some (.response 7 .busError) := by decide
/-- V115: the register changes, the running stream does not. -/
theorem test_configuration_write :
    (after (step (asked afterP2Tick (.wr32 0x80000018 100)))).map (fun t => (t.regs.bytes, t.lat.bytes)) =
      some (100#32, 3840#32) := by decide
/-- R67: SETUP is four writes, at the offsets of R10, and `REMOVE_FREQ f` truncates `f` to 16 bits. -/
theorem test_assembler :
    asmSetup wide v70 = [.wr32 0x80000010 48000, .wr32 0x80000014 240, .wr32 0x80000018 3840, .wr32 0x8000001C 0x1000] ∧
    asmRemoveFreq wide 0x12EE0 = .wr64 0x80000000 0x0000000200002EE0#64 ∧
    asmAddOscFields wide 100 0 480 = .wr64 0x80000000 0x0000000101E00064#64 := by decide

/-! ## States that meet the hypotheses of the obligations -/

/-- An ARMED block over P3's stream, and one over P5's. -/
def armedP3 (cursor : Word) : State := block wide .armed p3 cursor [0x2EE00000]
def armedP5 : State := block wide .armed p5 0 [0x2EE00000, 0x2EE02D00]

/-- The word of a command, written to CMD by master 7. -/
def command (w : CmdWord) : Input := .host 7 (.wr64 0x80000000 w)

theorem p3_launchable : p3.Launchable wide := ⟨by decide, by decide, by decide, by decide⟩
theorem p5_launchable : p5.Launchable wide := ⟨by decide, by decide, by decide, by decide⟩
/-- V90: the last addresses of the sample space. -/
theorem v90_launchable : (⟨1, 1, 4, 0xFFFFFFFC⟩ : StreamParams).Launchable wide := ⟨by decide, by decide, by decide, by decide⟩

theorem armedP3_inv : (armedP3 8).Inv :=
  ⟨by decide, by decide, by decide, by decide, by decide, fun _ => p3_launchable, fun _ => by decide,
    fun _ => by decide⟩
theorem armedP5_inv (l : List Input) : (armedP5.setInputs l).Inv :=
  have h : armedP5.Inv :=
    ⟨by decide, by decide, by decide, by decide, by decide, fun _ => p5_launchable, fun _ => by decide,
      fun _ => by decide⟩
  ⟨h.1, h.2, h.3, h.4, h.5, h.6, h.7, h.8⟩

theorem witness_EncodeThenDecode :
    Instr.wf .host (.addOsc 0xFFFFFFFF) = true ∧ Instr.wf .host (.removeFreq 0xFFFF0000) = true ∧
    Instr.wf .host (.arm 0) = true ∧ Instr.wf .host (.stop 0xFFFFFFFF) = true ∧ Instr.wf .timer .tick = true := by decide
theorem witness_DecodeThenEncode :
    decode .host 0x00000001FFFFFFFF#64 = .ok (.addOsc 0xFFFFFFFF) ∧ decode .timer tickEventWord = .ok .tick := ⟨rfl, rfl⟩
/-- Bits 40 and 63 of `RSVD`; `OP` 0, 5, 0x80 and 0xFF. -/
theorem witness_IllegalCommandChangesOnlyResult :
    (asked armedP5 (.wr64 0x80000000 0x0000010100000000)).inputs =
      [.host 7 (.wr64 (asked armedP5 (.wr64 0x80000000 0)).cfg.regBase 0x0000010100000000)] ∧
    (0x0000010100000000#64).extractLsb' 40 24 ≠ 0#24 ∧ (0x8000000400000000#64).extractLsb' 40 24 ≠ 0#24 ∧
    ((0x00000000FFFFFFFF#64).extractLsb' 32 8).toNat = 0 ∧ 4 < ((0x0000000500000000#64).extractLsb' 32 8).toNat ∧
    4 < ((0x0000008000000000#64).extractLsb' 32 8).toNat ∧ 4 < ((0x000000FF00000000#64).extractLsb' 32 8).toNat := by decide
theorem witness_StepRunsCommand :
    (armedP5.setInputs [command 0x0000000101E00064, .timer]).inputs =
      .host 7 (.wr64 armedP5.cfg.regBase 0x0000000101E00064) :: [.timer] ∧
    decode .host 0x0000000101E00064#64 = .ok (.addOsc 0x01E00064) ∧
    decode .host 0x00000002000001E0#64 = .ok (.removeFreq 0x000001E0) ∧
    decode .host 0x0000000300000000#64 = .ok (.arm 0) ∧ decode .host 0x0000000400000000#64 = .ok (.stop 0) :=
  ⟨rfl, rfl, rfl, rfl, rfl⟩
theorem witness_StepRunsTick :
    (armedP5.setInputs [.timer]).inputs = [.timer] ∧ (armedP5.inputs = [] ∧ armedP5.sched = .armed) ∧
    ((State.resetWith wide).inputs = [] ∧ (State.resetWith wide).sched ≠ .armed) := by decide
/-- R85(a) at the ends of the fields. -/
theorem witness_CodecLaws : (127 < 128 ∧ 511 < 512 ∧ 65535 < 65536) ∧ (0 < 128 ∧ 0 < 512 ∧ 0 < 65536) := by decide
theorem witness_AddOscAppendsOrReportsFull :
    (block wide .halted p3 0 [1, 2, 3]).table.length = wide.tableCapacity ∧
    (block wide .halted p3 0 [1, 2]).table.length ≠ wide.tableCapacity := by decide
theorem witness_RemoveFreqIdempotent :
    (0xFFFF2EE0#32).extractLsb' 0 16 = (0x00002EE0#32).extractLsb' 0 16 ∧
    ∃ t, exec (.removeFreq 0xFFFF2EE0) armedP5 = .next t := ⟨by decide, _, rfl⟩
/-- L1-8: adds and ticks up to the table's last place. -/
theorem witness_InterleavedAddsAllAppear :
    let s := (armedP3 0).setInputs [.timer, command 0x0000000100640000, .timer, command 0x0000000100C80000]
    s.Launch ∧ (∀ i ∈ s.inputs, i = .timer ∨ i.IsCommand s.cfg (fun j => ∃ d, j = .addOsc d)) ∧
    s.table.length + (addedDescriptors s.cfg s.inputs).length = s.cfg.tableCapacity := by
  refine ⟨⟨⟨by decide, by decide, by decide, by decide, by decide, fun _ => p3_launchable, fun _ => by decide,
    fun _ => by decide⟩, by unfold State.FatalOutcome; decide⟩, ?_, by decide⟩
  intro i hi
  simp only [setInputs_inputs, List.mem_cons, List.not_mem_nil, or_false] at hi
  rcases hi with rfl | rfl | rfl | rfl
  · exact .inl rfl
  · exact .inr ⟨7, 0x0000000100640000, _, rfl, rfl, _, rfl⟩
  · exact .inl rfl
  · exact .inr ⟨7, 0x0000000100C80000, _, rfl, rfl, _, rfl⟩
theorem witness_AccumulatorNeverOverflows :
    largest.wf = true ∧ (List.replicate 65536 (0 : Word)).length ≤ largest.tableCapacity ∧
    ([1, 2] : List Word).Perm [2, 1] := ⟨by decide, by rw [List.length_replicate]; decide, by decide⟩
theorem witness_MeanIsASample : ([] : List Word) = [] ∧ ([0x2EE02D00] : List Word) ≠ [] := by decide
theorem witness_MixPhaseAfterFrames : (1 : Nat) ≤ 1 := by decide
theorem witness_MixWritesEveryFrame : (0 < 1 ∧ 0 < 4) ∧ (3 < 4 ∧ 3 < 4) ∧ ¬ (0x2000 ≤ 0x2010 ∧ 0x2010 < 0x2000 + 4 * 4) := by
  decide
/-- V68's two amplitudes. -/
theorem witness_AmplitudeNeverHeard :
    ([0x2EE0007F, 0x2EE02D01] : List Word).map (fun e => setAmplitude e 0) = armedP5.table.map (fun e => setAmplitude e 0) ∧
    ∃ t, exec .tick armedP5 = .next t := ⟨by decide, _, rfl⟩
/-- V73's exact fit from IDLE and from STOPPED, V77's empty region; a region one byte longer than its memory; then V75,
HALTED, V71, V76, V72 and V74. -/
theorem witness_ArmLatchesOrRefuses :
    (∀ x ∈ [SchedState.idle, SchedState.stopped], ∀ p ∈ [(⟨48000, 240, 0x800, 0xFFFFF800⟩ : StreamParams), ⟨1, 1, 0, 0⟩],
      ((configured wide x p).sched = .idle ∨ (configured wide x p).sched = .stopped) ∧
      (configured wide x p).regs.rate ≠ 0 ∧ (configured wide x p).regs.period ≠ 0 ∧
      (configured wide x p).regs.base.extractLsb' 0 2 = 0#2 ∧
      (configured wide x p).regs.base.toNat + (configured wide x p).regs.bytes.toNat ≤ 2 ^ wide.sampleAddrBits) ∧
    backed wide 0xFFFFF800 0x800 = true ∧ backed wide 0 0 = true ∧
    (let s := configured narrow .idle ⟨48000, 1, 0x4001, 0x1000⟩
     s.sched = .idle ∧ s.regs.rate ≠ 0 ∧ s.regs.period ≠ 0 ∧ s.regs.base.extractLsb' 0 2 = 0#2 ∧
      s.regs.base.toNat + s.regs.bytes.toNat ≤ 2 ^ s.cfg.sampleAddrBits ∧
      backed s.cfg s.regs.base.toNat s.regs.bytes.toNat = false) ∧
    (configured wide .armed v70).sched = .armed ∧ (configured wide .halted v70).sched = .halted ∧
    (configured wide .idle ⟨0, 240, 3840, 0x1000⟩).regs.rate = 0 ∧
    (configured wide .idle ⟨48000, 0, 3840, 0x1000⟩).regs.period = 0 ∧
    (configured wide .idle ⟨48000, 240, 3840, 0x1001⟩).regs.base.extractLsb' 0 2 ≠ 0#2 ∧
    2 ^ wide.sampleAddrBits < (configured wide .idle ⟨48000, 240, 0x801, 0xFFFFF800⟩).regs.base.toNat +
      (configured wide .idle ⟨48000, 240, 0x801, 0xFFFFF800⟩).regs.bytes.toNat := by decide
theorem witness_StopStopsOnlyArmed :
    armedP5.sched = .armed ∧ (block wide .halted p5 0 []).sched ≠ .armed ∧ ∃ t, exec (.stop 0) armedP5 = .next t :=
  ⟨by decide, by decide, _, rfl⟩
theorem witness_TickOutsideArmedDoesNothing :
    (block wide .idle p5 0 []).sched ≠ .armed ∧ (block wide .stopped p5 32 []).sched ≠ .armed ∧
    (block wide .halted p5 32 []).sched ≠ .armed := by decide
/-- V85, and a cursor just past a region. -/
theorem witness_FatalTickHaltsOnly :
    (∀ s ∈ [block wide .armed ⟨48000, 240, 0, 0x1000⟩ 0 [], armedP3 10],
      s.sched = .armed ∧ regionBacked s.cfg s.lat = true ∧ ¬ (s.cursor.toNat < s.lat.bytes.toNat)) := by decide
/-- P3 step 6: two bytes left. And one byte less than a period left. -/
theorem witness_SkippedTickAdvances :
    (∀ s ∈ [armedP3 8, armedP3 7], s.sched = .armed ∧ regionBacked s.cfg s.lat = true ∧ s.cursor.toNat < s.lat.bytes.toNat ∧
      s.lat.bytes.toNat - s.cursor.toNat < 4 * s.lat.period.toNat) := by decide
/-- P5 from 0, and its second period, which fits exactly; V90. -/
theorem witness_FillingTickWritesPeriod :
    (∀ s ∈ [armedP5, armedP5.setCursor 16, block wide .armed ⟨1, 1, 4, 0xFFFFFFFC⟩ 0 []],
      s.sched = .armed ∧ s.lat.Launchable s.cfg ∧ s.RegionBacked ∧ s.cursor.toNat < s.lat.bytes.toNat ∧
      4 * s.lat.period.toNat ≤ s.lat.bytes.toNat - s.cursor.toNat) := by
  intro s hs
  simp only [List.mem_cons, List.not_mem_nil, or_false] at hs
  rcases hs with rfl | rfl | rfl
  · exact ⟨rfl, p5_launchable, by unfold State.RegionBacked; decide, by decide, by decide⟩
  · exact ⟨rfl, p5_launchable, by unfold State.RegionBacked; decide, by decide, by decide⟩
  · exact ⟨rfl, v90_launchable, by unfold State.RegionBacked; decide, by decide, by decide⟩
/-- A region one byte longer than its memory, at a skip and at a fill that is itself backed; a fill at rate 0; and P5. -/
theorem witness_TickStopsExactly :
    (∀ s ∈ [block narrow .armed ⟨48000, 1, 0x4001, 0x1000⟩ 0x4000 [], block narrow .armed ⟨48000, 1, 0x4001, 0x1000⟩ 0 []],
      s.sched = .armed ∧ ¬ regionBacked s.cfg s.lat = true) ∧
    (let s := block narrow .armed ⟨0, 1, 4, 0x1000⟩ 0 []
     s.sched = .armed ∧ regionBacked s.cfg s.lat = true ∧ s.cursor.toNat < s.lat.bytes.toNat ∧
      4 * s.lat.period.toNat ≤ s.lat.bytes.toNat - s.cursor.toNat ∧ s.lat.rate = 0) ∧
    (¬ (armedP5.sched = .armed ∧ ¬ regionBacked armedP5.cfg armedP5.lat = true) ∧
      ¬ (armedP5.sched = .armed ∧ armedP5.cursor.toNat < armedP5.lat.bytes.toNat ∧
        4 * armedP5.lat.period.toNat ≤ armedP5.lat.bytes.toNat - armedP5.cursor.toNat ∧ armedP5.lat.rate = 0)) := by decide
theorem witness_CursorSequence :
    (armedP3 0).sched = .armed ∧ (armedP3 0).lat.Launchable (armedP3 0).cfg ∧ (armedP3 0).RegionBacked ∧
    (armedP3 0).cursor = 0 ∧ 0 < (armedP3 0).lat.bytes.toNat :=
  ⟨rfl, p3_launchable, by unfold State.RegionBacked; decide, rfl, by decide⟩
/-- V84. -/
theorem witness_OversizedPeriodNeverFills :
    let s := block wide .armed ⟨48000, 3, 8, 0x1000⟩ 0 [0x2EE00000]
    s.sched = .armed ∧ regionBacked s.cfg s.lat = true ∧ s.cursor = 0 ∧ 0 < s.lat.bytes.toNat ∧
      s.lat.bytes.toNat < 4 * s.lat.period.toNat := by decide
theorem witness_FillsPerCycle :
    armedP5.sched = .armed ∧ armedP5.lat.Launchable armedP5.cfg ∧ armedP5.RegionBacked ∧
    armedP5.cursor = 0 ∧ 0 < armedP5.lat.bytes.toNat :=
  ⟨rfl, p5_launchable, by unfold State.RegionBacked; decide, rfl, by decide⟩
/-- V85's block. -/
theorem witness_FatalOnlyForEmptyRegion :
    let s := block wide .armed ⟨48000, 240, 0, 0x1000⟩ 0 []
    s.Inv ∧ s.sched = .armed ∧ ∃ t, exec .tick s = .next t ∧ t.sched = .halted :=
  ⟨⟨by decide, by decide, by decide, by decide, by decide, fun _ => ⟨by decide, by decide, by decide, by decide⟩,
    fun _ => .inr (by decide), fun _ => by decide⟩, rfl, _, rfl, rfl⟩
/-- ARM, STOP, the fatal path and reset. -/
theorem witness_SchedulerTransitions :
    (∀ s ∈ [(configured wide .idle v70).setInputs [command 0x0000000300000000], armedP5.setInputs [command 0x0000000400000000],
        block wide .armed ⟨48000, 240, 0, 0x1000⟩ 0 [], (block wide .halted p5 0 []).setInputs [.reset]],
      ((after (step s)).map fun t => decide (t.sched ≠ s.sched)) = some true) := by decide
/-- ADD_OSC, REMOVE_FREQ, a TICK whose phases move, and reset. -/
theorem witness_TableWriters :
    (∀ s ∈ [armedP5.setInputs [command 0x0000000101E00064], armedP5.setInputs [command 0x0000000200002EE0],
        armedP3 0, armedP5.setInputs [.reset]],
      ((after (step s)).map fun t => decide (t.table ≠ s.table)) = some true) := by decide
theorem witness_TickKeepsAmplitudeAndFrequency : ∃ t, exec .tick armedP5 = .next t := ⟨_, rfl⟩
theorem witness_WritesStayInsideRegion :
    (∀ x ∈ [0x3000, 0x300F], ((after (step armedP5)).map fun t =>
      decide (Memory.read t.mem x ≠ Memory.read armedP5.mem x)) = some true) := by decide
theorem witness_MemoryIsHistoryReplayed : Input.reset ∉ armedP5.inputs ∧ ∃ t, runSteps 2 armedP5 = .next t :=
  ⟨by decide, _, rfl⟩
/-- STOP, then two ticks, an ADD_OSC and a reset. -/
theorem witness_NoWriteAfterStop :
    let rest : List Input := [.timer, command 0x0000000101E00064, .timer, .reset]
    let s := armedP5.setInputs (.host 7 (.wr64 (wide.hostAddress cmdOffset) (encode (.stop 0))) :: rest)
    s.inputs = .host 7 (.wr64 (s.cfg.hostAddress cmdOffset) (encode (.stop 0))) :: rest ∧
    (∀ i ∈ rest, ¬ i.IsCommand s.cfg (fun j => ∃ a, j = .arm a)) ∧ ∃ t, runSteps 5 s = .next t := by
  refine ⟨rfl, ?_, _, rfl⟩
  intro i hi
  simp only [List.mem_cons, List.not_mem_nil, or_false] at hi
  rcases hi with rfl | rfl | rfl | rfl
  · rintro ⟨m, w, j, h, -⟩; cases h
  · rintro ⟨m, w, j, h, hd, a, rfl⟩
    cases h
    have h' : decode .host 0x0000000101E00064#64 = .ok (.addOsc 0x01E00064#32) := rfl
    cases h'.symm.trans hd
  · rintro ⟨m, w, j, h, -⟩; cases h
  · rintro ⟨m, w, j, h, -⟩; cases h
theorem witness_HaltedIsSticky :
    let s := (block wide .halted p5 0 []).setInputs [.timer, command 0x0000000300000000, command 0x0000000400000000]
    s.sched = .halted ∧ Input.reset ∉ s.inputs ∧ ∃ t, runSteps 3 s = .next t := ⟨rfl, by decide, _, rfl⟩
theorem witness_StepKeepsInv : (armedP3 8).Inv ∧ ∃ t, step (armedP3 8) = .next t := ⟨armedP3_inv, _, rfl⟩
theorem witness_ResetIsLaunch : Config.standard.wf = true ∧ largest.wf = true ∧ narrow.wf = true := by decide
/-- A read that ends with the sample space. -/
theorem witness_RunsNeverStop :
    (armedP5.setInputs [.consumer 0xFFFFFFFC 4]).Inv ∧ backed wide 0 wide.sampleSpace = true ∧
    ReadsInside wide [.consumer 0xFFFFFFFC 4] := by
  refine ⟨armedP5_inv _, by decide, ?_⟩
  intro a n h
  simp only [List.mem_cons, Input.consumer.injEq, List.not_mem_nil, or_false] at h
  obtain ⟨rfl, rfl⟩ := h
  decide
theorem witness_ArmedBlockKeepsNotifying :
    let s := armedP5.setInputs [.timer, .consumer 0x3000 16]
    s.Inv ∧ s.sched = .armed ∧ 0 < s.lat.bytes.toNat ∧ backed s.cfg 0 s.cfg.sampleSpace = true ∧
    ReadsInside s.cfg s.inputs ∧ Input.reset ∉ s.inputs ∧
    (∀ i ∈ s.inputs, ¬ i.IsCommand s.cfg (fun j => ∃ a, j = .stop a)) := by
  refine ⟨armedP5_inv _, rfl, by decide, by decide, ?_, by decide, ?_⟩
  · intro a n h
    simp only [setInputs_inputs, List.mem_cons, Input.consumer.injEq, List.not_mem_nil, or_false, reduceCtorEq, false_or] at h
    obtain ⟨rfl, rfl⟩ := h
    decide
  · intro i hi
    simp only [setInputs_inputs, List.mem_cons, List.not_mem_nil, or_false] at hi
    rcases hi with rfl | rfl <;> (rintro ⟨m, w, j, h, -⟩; cases h)
/-- The last address below REG_BASE. Each of R141's cases at a boundary: width 16, offset 9, 64 bits at offset 8, the two halves of CMD, the first offset
past the block; and accesses of each form that are none of them, the last offset among them. -/
theorem witness_BusErrorsExactly :
    (let a : Access := .rd32 0x7FFFFFFC; a.addr < wide.regBase) ∧
    (let a : Access := .otherWidth 16 0x80000008
     a.addr = wide.regBase + 8 ∧ a.bits ≠ 32 ∧ a.bits ≠ 64) ∧
    (let a : Access := .rd32 0x80000009; a.addr = wide.regBase + 9 ∧ 9 % (a.bits / 8) ≠ 0) ∧
    (let a : Access := .rd64 0x80000008; a.addr = wide.regBase + 8 ∧ a.bits = 64 ∧ 8 ≠ 0) ∧
    (let a : Access := .rd32 0x80000000; a.addr = wide.regBase + 0 ∧ a.bits = 32) ∧
    (let a : Access := .wr32 0x80000004 1; a.addr = wide.regBase + 4 ∧ a.bits = 32) ∧
    (let a : Access := .rd32 0x80080000; a.addr = wide.regBase + 0x80000 ∧ 0x7FFFF < 0x80000) ∧
    (∀ p ∈ [((.rd32 0x80000008 : Access), 8), (.wr32 0x8007FFFC 1, 0x7FFFC), (.rd64 0x80000000, 0), (.wr64 0x80000000 0, 0)],
      p.1.addr = wide.regBase + p.2 ∧ p.1.wf = true ∧
      ¬ ((p.1.bits ≠ 32 ∧ p.1.bits ≠ 64) ∨ p.2 % (p.1.bits / 8) ≠ 0 ∨ (p.1.bits = 64 ∧ p.2 ≠ 0) ∨
        (p.1.bits = 32 ∧ (p.2 = 0 ∨ p.2 = 4)) ∨ 0x7FFFF < p.2)) := by decide
/-- The refused alternative at step level: a CMD write of ARM over a region one byte longer than its memory. -/
theorem witness_BusErrorsExactly_refused :
    let s := asked (configured narrow .idle ⟨48000, 1, 0x4001, 0x1000⟩) (.wr64 0x80000000 0x0000000300000000)
    (∃ arg, s.RunsCommand (.arm arg)) ∧ step s = .refused .regionNotBacked :=
  ⟨⟨0, 7, _, [], rfl, rfl⟩, rfl⟩
/-- P2 after its first TICK at the ten single registers; the TABLE window's first and last place, the reserved offsets' first
and last, before and in the window, for a table of four places; and the window's last offset for the largest table. -/
theorem witness_ReadsReturnRegisters :
    (asked afterP2Tick (.rd32 0x80000008)).inputs = [.host 7 (.rd32 (wide.regBase + 0x00008))] ∧
    (0x14#32).toNat = afterP2Tick.result.code.toNat + 4 * afterP2Tick.sched.code.toNat +
      16 * (if afterP2Tick.sched = .armed then 1 else 0) + 32 * (if afterP2Tick.sched = .halted then 1 else 0) ∧
    1#32 = BitVec.ofNat 32 afterP2Tick.table.length ∧ 48000#32 = afterP2Tick.regs.rate ∧
    240#32 = afterP2Tick.regs.period ∧ 3840#32 = afterP2Tick.regs.bytes ∧ 0x1000#32 = afterP2Tick.regs.base ∧
    960#32 = afterP2Tick.cursor ∧ (240#32).toNat = afterP2Tick.cursor.toNat / 4 ∧ 1#32 = afterP2Tick.periodCount ∧
    3#32 = BitVec.ofNat 32 wide.tableCapacity ∧
    (let s := block fourPlaces .armed v70 0 [0x01E00064]
     (0x40000 = 0x40000 + 4 * 0 ∧ 0 < s.cfg.tableCapacity ∧ 0x40000 ≤ 0x7FFFC ∧ 0x01E00064#32 = (s.table[0]?).getD 0) ∧
     (0x4000C = 0x40000 + 4 * 3 ∧ 3 < s.cfg.tableCapacity ∧ 0x4000C ≤ 0x7FFFC ∧ 0#32 = (s.table[3]?).getD 0) ∧
     (0x40010 = 0x40000 + 4 * 4 ∧ s.cfg.tableCapacity ≤ 4 ∧ 0x40010 ≤ 0x7FFFC) ∧
     (0x7FFFC = 0x40000 + 4 * 65535 ∧ s.cfg.tableCapacity ≤ 65535 ∧ 0x7FFFC ≤ 0x7FFFC)) ∧
    (0x00030 ≤ 0x00030 ∧ 0x00030 ≤ 0x3FFFC ∧ 0x00030 % 4 = 0) ∧ (0x00030 ≤ 0x3FFFC ∧ 0x3FFFC ≤ 0x3FFFC ∧ 0x3FFFC % 4 = 0) ∧
    (0x7FFFC = 0x40000 + 4 * 65535 ∧ 65535 < largest.tableCapacity ∧ 0x7FFFC ≤ 0x7FFFC) := by decide
/-- The four configuration registers; STATUS, the offsets beside the configuration registers, and the last offset. -/
theorem witness_WritesSetConfigurationOnly :
    (asked afterP2Tick (.wr32 0x80000018 100)).inputs = [.host 7 (.wr32 (wide.regBase + 0x00018) 100)] ∧
    (⟨1, 240, 3840, 0x1000⟩ : StreamParams) = { afterP2Tick.regs with rate := 1 } ∧
    (⟨48000, 1, 3840, 0x1000⟩ : StreamParams) = { afterP2Tick.regs with period := 1 } ∧
    (⟨48000, 240, 1, 0x1000⟩ : StreamParams) = { afterP2Tick.regs with bytes := 1 } ∧
    (⟨48000, 240, 3840, 1⟩ : StreamParams) = { afterP2Tick.regs with base := 1 } ∧
    (∀ o ∈ [0x00008, 0x0000C, 0x00020, 0x40000, 0x7FFFC], 8 ≤ o ∧ o ≤ 0x7FFFC ∧ o % 4 = 0 ∧ o ≠ 0x00010 ∧
      o ≠ 0x00014 ∧ o ≠ 0x00018 ∧ o ≠ 0x0001C) := by decide
theorem witness_CmdReadsZero :
    (asked afterP2Tick (.rd64 0x80000000)).inputs = [.host 7 (.rd64 afterP2Tick.cfg.regBase)] := by decide
theorem witness_NoRegisterAliased :
    (0x0000C % 4 = 0 ∧ regAt wide 0x0000C = regAt wide 0x0000C) ∧ regAt wide 0x40008 ≠ regAt wide 0x4000C := by decide
theorem witness_PositionIsExact : (armedP3 8).Inv := armedP3_inv
theorem witness_ResetValues : ((block wide .halted p5 16 [1, 2]).setInputs [.reset, .timer]).inputs = .reset :: [.timer] := rfl
/-- The last four bytes of the sample space, where `narrow` has no memory. -/
theorem witness_ConsumerSeesLatestBytes :
    ((State.resetWith narrow).setInputs [.consumer 0xFFFC 4]).inputs = [.consumer 0xFFFC 4] ∧
    0xFFFC + 4 ≤ narrow.sampleSpace ∧ backed narrow 0xFFFC 4 = false := by decide
/-- One byte too far, and the last byte. -/
theorem witness_ConsumerStopsOnlyOutside : narrow.sampleSpace < 0xFFFD + 4 ∧ 0xFFFF + 1 ≤ narrow.sampleSpace := by decide
/-- An ended run with a read, an in-flight tick and a reset still to come. -/
theorem witness_EndedStaysEnded :
    let s := (block wide .stopped p5 16 []).setInputs [.consumer 0x3000 16, .timer, .reset]
    s.Ended ∧ ∃ t, runSteps 3 s = .next t :=
  ⟨⟨by unfold State.AccessesDone; decide, .inr rfl⟩, _, rfl⟩
theorem witness_StopEndsTheRun :
    (armedP5.setInputs [.host 7 (.wr64 (wide.hostAddress cmdOffset) (encode (.stop 0))), .timer]).inputs =
      .host 7 (.wr64 (armedP5.cfg.hostAddress cmdOffset) (encode (.stop 0))) :: [.timer] ∧
    (∀ i ∈ [Input.timer], i.isHost = false) ∧ armedP5.sched ≠ .halted := by decide
theorem witness_EndsAfterEveryTickCount :
    (armedP5.setInputs []).Inv ∧ armedP5.sched = .armed ∧ 0 < armedP5.lat.bytes.toNat ∧ armedP5.inputs = [] :=
  ⟨armedP5_inv _, rfl, by decide, rfl⟩

end Sys2Proof.Tests
end

section
/-! SUPPORT. How a step ends (R6): for each part of a step, exactly when it stops, said once; then O57. -/

namespace Sys2Proof.Machine

/-! ### Where an outcome stops -/

theorem andThen_eq_fault {o : Host.Outcome State Fault Refusal} {f : State → State} {r : Fault} :
    andThen o f = .fault r ↔ o = .fault r := by
  cases o <;> simp [andThen]

theorem andThen_eq_refused {o : Host.Outcome State Fault Refusal} {f : State → State} {r : Refusal} :
    andThen o f = .refused r ↔ o = .refused r := by
  cases o <;> simp [andThen]

/-- An outcome that is no stop is a next state. -/
theorem exists_next_of_no_stop {o : Host.Outcome State Fault Refusal} (hf : ∀ r, o ≠ .fault r)
    (hr : ∀ r, o ≠ .refused r) : ∃ t, o = .next t := by
  cases o with
  | next t => exact ⟨t, rfl⟩
  | fault r => exact absurd rfl (hf r)
  | refused r => exact absurd rfl (hr r)

/-! ### TICK -/

theorem fillPeriod_ne_fault (s : State) (r : Fault) : fillPeriod s ≠ .fault r := by
  unfold fillPeriod
  split <;> simp

/-- A fill is refused exactly at a latched rate of 0 (log 8). -/
theorem fillPeriod_refused_iff {s : State} {r : Refusal} :
    fillPeriod s = .refused r ↔ r = .zeroRateLaunch ∧ s.lat.rate = 0 := by
  by_cases hrate : s.lat.rate = 0
  · simp [fillPeriod, hrate, @eq_comm _ r]
  · simpa [fillPeriod_of_rate hrate] using fun _ => hrate

/-- A TICK that does something is refused: its region is not backed (log 6), or it comes to a fill at rate 0 (log 8). -/
def State.TickRefused (s : State) (r : Refusal) : Prop :=
  s.sched = .armed ∧
    ((r = .regionNotBacked ∧ ¬ s.RegionBacked) ∨
     (r = .zeroRateLaunch ∧ s.RegionBacked ∧ cursorInRegion s = true ∧ periodFits s = true ∧ s.lat.rate = 0))

theorem execTick_ne_fault (s : State) (r : Fault) : execTick s ≠ .fault r := by
  unfold execTick
  split_ifs <;> simp [andThen_eq_fault, fillPeriod_ne_fault]

theorem execTick_of_not_armed {s : State} (h : s.sched ≠ .armed) : execTick s = .next s := if_pos h

/-- The checks of a TICK in R163(e)'s order, read for a refusal. -/
theorem execTick_refused_iff {s : State} {r : Refusal} : execTick s = .refused r ↔ s.TickRefused r := by
  unfold State.TickRefused State.RegionBacked
  by_cases harmed : s.sched = .armed
  case neg => simp [execTick_of_not_armed harmed, harmed]
  cases hbacked : regionBacked s.cfg s.lat with
  | false => simp [execTick_of_not_backed harmed hbacked, harmed, @eq_comm _ r]
  | true =>
    cases hcursor : cursorInRegion s with
    | false => simp [execTick_of_outside harmed hbacked hcursor]
    | true =>
      cases hfits : periodFits s with
      | false => simp [execTick_of_not_fits harmed hbacked hcursor hfits]
      | true =>
        simp [execTick_of_fits harmed hbacked hcursor hfits, andThen_eq_refused, fillPeriod_refused_iff, harmed]

/-! ### Commands -/

/-- ARM would start a stream over a region that is not backed (R54, log 6). -/
def State.ArmRefused (s : State) : Prop :=
  (s.sched = .idle ∨ s.sched = .stopped) ∧ armParamsOk s.cfg s.regs = true ∧ regionBacked s.cfg s.regs = false

theorem sched_idle_or_stopped_iff {x : SchedState} : (x = .idle ∨ x = .stopped) ↔ ¬ (x = .armed ∨ x = .halted) := by
  cases x <;> decide

theorem execArm_refused_iff {arg : Word} {s : State} {r : Refusal} :
    execArm arg s = .refused r ↔ s.ArmRefused ∧ r = .regionNotBacked := by
  unfold execArm State.ArmRefused
  rw [sched_idle_or_stopped_iff]
  by_cases hbusy : s.sched = .armed ∨ s.sched = .halted
  case pos => simp [hbusy, finishCommand]
  cases hok : armParamsOk s.cfg s.regs with
  | false => simp [hbusy, finishCommand]
  | true => cases hbacked : regionBacked s.cfg s.regs <;> simp [hbusy, finishCommand, @eq_comm _ r]

theorem execAddOsc_answers (arg : Word) (s : State) : ∃ t, execAddOsc arg s = .next t := by
  unfold execAddOsc
  split <;> exact ⟨_, rfl⟩

theorem execArm_ne_fault (arg : Word) (s : State) (r : Fault) : execArm arg s ≠ .fault r := by
  unfold execArm
  split_ifs <;> simp [finishCommand]

/-- No instruction faults. -/
theorem exec_ne_fault (i : Instr) (s : State) (r : Fault) : exec i s ≠ .fault r := by
  cases i with
  | addOsc arg => obtain ⟨t, ht⟩ := execAddOsc_answers arg s; simp [exec, ht]
  | removeFreq arg => simp [exec, execRemoveFreq, finishCommand]
  | arm arg => exact execArm_ne_fault arg s r
  | stop arg => simp [exec, execStop, finishCommand]
  | tick => exact execTick_ne_fault s r

/-- The host's port issues no TICK (R65, R68). -/
theorem decode_host_ne_tick (w : CmdWord) : decode .host w ≠ .ok .tick := by
  simp only [decode, decodeHost]
  split_ifs <;> simp

/-- A command is refused exactly as the ARM that R54 refuses. -/
theorem exec_refused_iff {i : Instr} (hi : i ≠ .tick) {s : State} {r : Refusal} :
    exec i s = .refused r ↔ (∃ arg, i = .arm arg) ∧ s.ArmRefused ∧ r = .regionNotBacked := by
  cases i with
  | addOsc arg => obtain ⟨t, ht⟩ := execAddOsc_answers arg s; simp [exec, ht]
  | removeFreq arg => simp [exec, execRemoveFreq, finishCommand]
  | arm arg => simp [exec, execArm_refused_iff]
  | stop arg => simp [exec, execStop, finishCommand]
  | tick => exact absurd rfl hi

theorem runCommand_ne_fault (w : CmdWord) (s : State) (r : Fault) : runCommand w s ≠ .fault r := by
  unfold runCommand
  split
  · exact exec_ne_fault _ s r
  · simp [finishCommand]

theorem runCommand_refused_iff {w : CmdWord} {s : State} {r : Refusal} :
    runCommand w s = .refused r ↔
      (∃ arg, decode .host w = .ok (.arm arg)) ∧ s.ArmRefused ∧ r = .regionNotBacked := by
  unfold runCommand
  cases hd : decode .host w with
  | error e => simp [finishCommand]
  | ok i =>
    have hi : i ≠ .tick := fun h => decode_host_ne_tick w (h ▸ hd)
    simp [exec_refused_iff hi]

/-! ### Inputs -/

/-- A 64-bit write to CMD is no bus error (R141): it runs its word and then responds (R142). -/
theorem hostAccess_command (m : Nat) (w : CmdWord) (s : State) :
    hostAccess m (.wr64 (s.cfg.hostAddress cmdOffset) w) s =
      andThen (runCommand w s) fun t => t.respond m (.okayResult t.result) := by
  have hoffset : regOffset s.cfg (Access.wr64 (s.cfg.hostAddress cmdOffset) w).addr = some cmdOffset :=
    regOffset_add s.cfg cmdOffset
  simp only [hostAccess, hoffset]
  rfl

/-- Every host access but a 64-bit write to CMD answers a next state (R140, R141). -/
theorem hostAccess_next_or_command (m : Nat) (a : Access) (s : State) :
    (∃ t, hostAccess m a s = .next t) ∨ ∃ w, a = .wr64 (s.cfg.hostAddress cmdOffset) w := by
  unfold hostAccess
  split
  · exact .inl ⟨_, rfl⟩
  · next o hoffset =>
    split
    · exact .inl ⟨_, rfl⟩
    · next hbus =>
      cases a with
      | rd32 x => exact .inl ⟨_, rfl⟩
      | wr32 x v => exact .inl ⟨_, rfl⟩
      | rd64 x => exact .inl ⟨_, rfl⟩
      | otherWidth b x => exact .inl ⟨_, rfl⟩
      | wr64 x w =>
        have hcmd : o = cmdOffset := by
          simp only [busErrorAt_iff, not_or, not_and, not_not, Access.bits] at hbus
          obtain ⟨-, -, ho, -⟩ := hbus
          exact ho trivial
        have hx : x = s.cfg.regBase + o := regOffset_eq_some.mp hoffset
        exact .inr ⟨w, by rw [hx, hcmd]; rfl⟩

theorem hostAccess_ne_fault (m : Nat) (a : Access) (s : State) (r : Fault) : hostAccess m a s ≠ .fault r := by
  obtain ⟨t, ht⟩ | ⟨w, rfl⟩ := hostAccess_next_or_command m a s
  · simp [ht]
  · simp [hostAccess_command, andThen_eq_fault, runCommand_ne_fault]

theorem hostAccess_refused_iff {m : Nat} {a : Access} {s : State} {r : Refusal} :
    hostAccess m a s = .refused r ↔
      (∃ arg w, a = .wr64 (s.cfg.hostAddress cmdOffset) w ∧ decode .host w = .ok (.arm arg)) ∧
        s.ArmRefused ∧ r = .regionNotBacked := by
  constructor
  · intro h
    obtain ⟨t, ht⟩ | ⟨w, rfl⟩ := hostAccess_next_or_command m a s
    · simp [ht] at h
    · rw [hostAccess_command, andThen_eq_refused, runCommand_refused_iff] at h
      obtain ⟨⟨arg, hd⟩, hrest⟩ := h
      exact ⟨⟨arg, w, rfl, hd⟩, hrest⟩
  · rintro ⟨⟨arg, w, rfl, hd⟩, hrest⟩
    rw [hostAccess_command, andThen_eq_refused, runCommand_refused_iff]
    exact ⟨⟨arg, hd⟩, hrest⟩

theorem consumerRead_fault_iff {addr n : Nat} {s : State} {r : Fault} :
    consumerRead addr n s = .fault r ↔ s.cfg.sampleSpace < addr + n := by
  cases r
  simp [consumerRead, inSampleSpace]

theorem consumerRead_ne_refused (addr n : Nat) (s : State) (r : Refusal) : consumerRead addr n s ≠ .refused r := by
  unfold consumerRead
  split <;> simp

/-! ### The step -/

theorem step_of_no_input {s : State} (h : s.inputs = []) : step s = execTick s := by
  simp only [step, h, runPending]
  split
  · rfl
  all_goals next hs => rw [execTick_of_not_armed (by simp [hs])]

theorem step_of_input {s : State} {i : Input} {rest : List Input} (h : s.inputs = i :: rest) :
    step s = runInput i (s.setInputs rest) := by
  simp only [step, h]

theorem runsTick_iff_of_no_input {s : State} (h : s.inputs = []) : s.RunsTick ↔ s.sched = .armed := by
  simp [State.RunsTick, h]

theorem runsTick_iff_of_input {s : State} {i : Input} {rest : List Input} (h : s.inputs = i :: rest) :
    s.RunsTick ↔ i = .timer := by
  simp [State.RunsTick, h]

theorem not_runsCommand_of_no_input {s : State} (h : s.inputs = []) (j : Instr) : ¬ s.RunsCommand j := by
  simp [State.RunsCommand, h]

theorem runsCommand_iff_of_input {s : State} {i : Input} {rest : List Input} (h : s.inputs = i :: rest) (j : Instr) :
    s.RunsCommand j ↔ ∃ m w, i = .host m (.wr64 (s.cfg.hostAddress cmdOffset) w) ∧ decode .host w = .ok j := by
  simp [State.RunsCommand, h]

/-- A step faults exactly at a consumer's read past the sample space (log 7). -/
theorem step_fault_iff {s : State} {r : Fault} :
    step s = .fault r ↔ ∃ addr n rest, s.inputs = .consumer addr n :: rest ∧ s.cfg.sampleSpace < addr + n := by
  cases hin : s.inputs with
  | nil => simp [step_of_no_input hin, execTick_ne_fault]
  | cons i rest =>
    rw [step_of_input hin]
    cases i with
    | host m a => simp [runInput, hostAccess_ne_fault]
    | timer => simp [runInput, exec_ne_fault]
    | consumer addr n => simp [runInput, consumerRead_fault_iff]
    | reset => simp [runInput]

/-- A step is refused exactly as the TICK or the ARM it runs. -/
theorem step_refused_iff {s : State} {r : Refusal} :
    step s = .refused r ↔
      (s.RunsTick ∧ s.TickRefused r) ∨
      ((∃ arg, s.RunsCommand (.arm arg)) ∧ s.ArmRefused ∧ r = .regionNotBacked) := by
  cases hin : s.inputs with
  | nil =>
    have harmed : s.TickRefused r → s.sched = .armed := And.left
    simp only [step_of_no_input hin, execTick_refused_iff, runsTick_iff_of_no_input hin,
      not_runsCommand_of_no_input hin, exists_false, false_and, or_false]
    exact ⟨fun h => ⟨harmed h, h⟩, And.right⟩
  | cons i rest =>
    simp only [step_of_input hin, runsTick_iff_of_input hin, runsCommand_iff_of_input hin]
    cases i with
    | host m a =>
      simp only [runInput, hostAccess_refused_iff, reduceCtorEq, false_and, false_or, Input.host.injEq]
      simp [State.ArmRefused]
    | timer =>
      have htick : exec .tick (s.setInputs rest) = .refused r ↔ s.TickRefused r := execTick_refused_iff
      simp [runInput, htick]
    | consumer addr n => simp [runInput, consumerRead_ne_refused]
    | reset => simp [runInput]

/-- Settles O57: a case split over the next input, each case by the lemma that says when its part of a step stops. -/
theorem stepOutcomes : Obligations.StepOutcomes := by
  intro s
  refine ⟨fun r => step_fault_iff, fun r => ?_⟩
  rw [step_refused_iff, State.TickRefused, State.ArmRefused, armParamsOk_iff, cursorInRegion_iff, periodFits_iff,
    regionBacked]
  constructor
  · rintro (⟨htick, harmed, (⟨hr, hnot⟩ | ⟨hr, hstop⟩)⟩ |
      ⟨hrun, ⟨hsched, ⟨hrate, hperiod, hbase, hinside⟩, hnot⟩, hr⟩)
    · exact .inl ⟨hr, .inl ⟨htick, harmed, hnot⟩⟩
    · exact .inr ⟨hr, htick, harmed, hstop⟩
    · exact .inl ⟨hr, .inr ⟨hrun, hsched, hrate, hperiod, hbase, hinside, hnot⟩⟩
  · rintro (⟨hr, (⟨htick, harmed, hnot⟩ |
      ⟨hrun, hsched, hrate, hperiod, hbase, hinside, hnot⟩)⟩ |
      ⟨hr, htick, harmed, hstop⟩)
    · exact .inl ⟨htick, harmed, .inl ⟨hr, hnot⟩⟩
    · exact .inr ⟨hrun, ⟨hsched, ⟨hrate, hperiod, hbase, hinside⟩, hnot⟩, hr⟩
    · exact .inl ⟨htick, harmed, .inr ⟨hr, hstop⟩⟩

end Sys2Proof.Machine
end

section
/-! SUPPORT. What every step keeps (`State.Inv`, the parameters, the inputs after the one it takes), and O44: a step that
keeps the invariant over wholly backed memory has nothing left to stop at. -/

namespace Sys2Proof.Machine

/-! ### The invariant through updates of one field -/

/-- The invariant reads six fields. -/
theorem State.Inv.of_same_fields {s t : State} (h : s.Inv) (hcfg : t.cfg = s.cfg) (hmem : t.mem = s.mem)
    (htable : t.table = s.table) (hcursor : t.cursor = s.cursor) (hsched : t.sched = s.sched) (hlat : t.lat = s.lat) :
    t.Inv := by
  obtain ⟨hc, hw, hb, ht, ha, hp, hr, hm⟩ := h
  constructor <;> simp only [hcfg, hmem, htable, hcursor, hsched, hlat] <;> assumption

theorem State.Inv.setInputs {s : State} (h : s.Inv) (l : List Input) : (s.setInputs l).Inv :=
  h.of_same_fields rfl rfl rfl rfl rfl rfl

theorem State.Inv.setResult {s : State} (h : s.Inv) (r : CmdResult) : (s.setResult r).Inv :=
  h.of_same_fields rfl rfl rfl rfl rfl rfl

theorem State.Inv.setRegs {s : State} (h : s.Inv) (p : StreamParams) : (s.setRegs p).Inv :=
  h.of_same_fields rfl rfl rfl rfl rfl rfl

theorem State.Inv.output {s : State} (h : s.Inv) (o : Output) : (s.output o).Inv :=
  h.of_same_fields rfl rfl rfl rfl rfl rfl

theorem State.Inv.respond {s : State} (h : s.Inv) (m : Nat) (r : Response) : (s.respond m r).Inv := h.output _

/-- A table within its capacity may be published (R22). -/
theorem State.Inv.setTable {s : State} (h : s.Inv) {t : List Word} (ht : t.length ≤ s.cfg.tableCapacity) :
    (s.setTable t).Inv :=
  { h with table_fits := ht }

/-- Leaving ARMED asks for nothing. -/
theorem State.Inv.setSched {s : State} (h : s.Inv) {x : SchedState} (hx : x ≠ .armed) : (s.setSched x).Inv :=
  { h with
    armed_params := fun hs => absurd hs hx
    armed_cursor := fun hs => absurd hs hx
    armed_backed := fun hs => absurd hs hx }

theorem State.Inv.after_reset {s : State} (h : s.Inv) : (resetBlock s).Inv :=
  { cfg_wf := h.cfg_wf
    mem_wf := h.mem_wf
    mem_inside := h.mem_inside
    table_fits := Nat.zero_le _
    cursor_aligned := rfl
    armed_params := nofun
    armed_cursor := nofun
    armed_backed := nofun }

/-! ### The invariant through the instructions -/

/-- ARM's parameter checks let through launchable parameters only (R120, R182). -/
theorem launchable_of_armParamsOk {c : Config} {p : StreamParams} (h : armParamsOk c p = true) : p.Launchable c := by
  obtain ⟨hrate, hperiod, hbase, hregion⟩ := (armParamsOk_iff c p).mp h
  refine ⟨?_, ?_, ?_, hregion⟩
  · exact Nat.one_le_iff_ne_zero.mpr fun h0 => hrate (BitVec.eq_of_toNat_eq h0)
  · exact Nat.one_le_iff_ne_zero.mpr fun h0 => hperiod (BitVec.eq_of_toNat_eq h0)
  · simpa [BitVec.extractLsb'_toNat] using congrArg BitVec.toNat hbase

theorem State.Inv.after_arm {s : State} (h : s.Inv) (hok : armParamsOk s.cfg s.regs = true)
    (hbacked : regionBacked s.cfg s.regs = true) : (armStream s).Inv :=
  { cfg_wf := h.cfg_wf
    mem_wf := h.mem_wf
    mem_inside := h.mem_inside
    table_fits := h.table_fits
    cursor_aligned := rfl
    armed_params := fun _ => launchable_of_armParamsOk hok
    armed_cursor := fun _ => .inr rfl
    armed_backed := fun _ => hbacked }

/-- The cursor after a tick is frame-aligned, and inside the region or at 0 (R126). -/
theorem State.Inv.after_advance {s : State} (h : s.Inv) : (advanceAndNotify s).Inv := by
  have haligned := h.cursor_aligned
  have hcursor := toNat_nextCursor s
  refine { h with cursor_aligned := ?_, armed_cursor := fun _ => ?_ }
  · rw [advanceAndNotify_cursor]
    split at hcursor <;> omega
  · rw [advanceAndNotify_cursor, advanceAndNotify_lat]
    split at hcursor <;> omega

/-- MIX inside the sample space: it keeps the number of entries and writes inside. -/
theorem State.Inv.after_mix {s : State} (h : s.Inv) {a r n : Nat} (hinside : a + 4 * n ≤ s.cfg.sampleSpace) :
    (mix a r n s).Inv where
  cfg_wf := by simpa using h.cfg_wf
  mem_wf := mix_mem_wf r n a s h.mem_wf
  mem_inside := by rw [mix_cfg]; exact mix_mem_below r n a s hinside h.mem_inside
  table_fits := by simpa [mix_table] using h.table_fits
  cursor_aligned := by simpa using h.cursor_aligned
  armed_params := by simpa using h.armed_params
  armed_cursor := by simpa using h.armed_cursor
  armed_backed := by simpa using h.armed_backed

/-- A period that fits lies in the sample space. -/
theorem period_inside {s : State} (h : s.Inv) (harmed : s.sched = .armed) (hcursor : cursorInRegion s = true)
    (hfits : periodFits s = true) : mixAddress s + 4 * s.lat.period.toNat ≤ s.cfg.sampleSpace := by
  have hregion := (h.armed_params harmed).region_inside
  rw [cursorInRegion_iff] at hcursor
  rw [periodFits_iff] at hfits
  unfold mixAddress
  omega

theorem execTick_keeps_inv {s t : State} (h : s.Inv) (ht : execTick s = .next t) : t.Inv := by
  obtain ⟨-, rfl⟩ | ⟨harmed, -, hcase⟩ := execTick_next ht
  · exact h
  obtain ⟨-, rfl⟩ | ⟨-, -, rfl⟩ | ⟨hcursor, hfits, -, rfl⟩ := hcase
  · exact h.setSched (by decide)
  · exact h.after_advance
  · exact (h.after_mix (period_inside h harmed hcursor hfits)).after_advance

theorem exec_keeps_inv {i : Instr} {s t : State} (h : s.Inv) (ht : exec i s = .next t) : t.Inv := by
  cases i with
  | addOsc arg =>
    obtain ⟨-, rfl⟩ | ⟨hroom, rfl⟩ := execAddOsc_next ht
    · exact h.setResult _
    · have hfits : (s.table ++ [arg]).length ≤ s.cfg.tableCapacity := by
        have := h.table_fits
        rw [List.length_append, List.length_singleton]
        omega
      exact (h.setTable hfits).setResult _
  | removeFreq arg =>
    obtain rfl := execRemoveFreq_next ht
    exact (h.setTable ((List.length_filter_le _ _).trans h.table_fits)).setResult _
  | arm arg =>
    obtain rfl | ⟨-, hok, hbacked, rfl⟩ := execArm_next (arg := arg) ht
    · exact h.setResult _
    · exact (h.after_arm hok hbacked).setResult _
  | stop arg =>
    obtain ⟨-, rfl⟩ | ⟨-, rfl⟩ := execStop_next (arg := arg) ht
    · exact (h.setSched (by decide)).setResult _
    · exact h.setResult _
  | tick => exact execTick_keeps_inv h ht

/-! ### The invariant through a step -/

theorem runCommand_keeps_inv {w : CmdWord} {s t : State} (h : s.Inv) (ht : runCommand w s = .next t) : t.Inv := by
  obtain ⟨-, rfl⟩ | ⟨i, -, hexec⟩ := runCommand_next ht
  · exact h.setResult _
  · exact exec_keeps_inv h hexec

theorem runInput_keeps_inv {i : Input} {s t : State} (h : s.Inv) (ht : runInput i s = .next t) : t.Inv := by
  cases i with
  | host m a =>
    obtain ⟨r, rfl⟩ | ⟨p, rfl⟩ | ⟨w, u, -, hu, rfl⟩ := hostAccess_next ht
    · exact h.respond _ _
    · exact (h.setRegs p).respond _ _
    · exact (runCommand_keeps_inv h hu).respond _ _
  | timer => exact execTick_keeps_inv h ht
  | consumer addr n =>
    obtain rfl := consumerRead_next ht
    exact h.output _
  | reset =>
    obtain rfl : resetBlock s = t := Host.Outcome.next.inj ht
    exact h.after_reset

theorem step_keeps_inv {s t : State} (h : s.Inv) (ht : step s = .next t) : t.Inv := by
  obtain ⟨-, -, rfl⟩ | ⟨-, -, htick⟩ | ⟨i, rest, -, hrun⟩ := step_next ht
  · exact h
  · exact execTick_keeps_inv h htick
  · exact runInput_keeps_inv (h.setInputs rest) hrun

/-! ### The parameters and the inputs through a step -/

/-- `t` has the parameters and the inputs of `s`. -/
def State.SameCfgInputs (s t : State) : Prop := t.cfg = s.cfg ∧ t.inputs = s.inputs

theorem execTick_keeps_cfg_inputs {s t : State} (ht : execTick s = .next t) : s.SameCfgInputs t := by
  obtain ⟨-, rfl⟩ | ⟨-, -, ⟨-, rfl⟩ | ⟨-, -, rfl⟩ | ⟨-, -, -, rfl⟩⟩ := execTick_next ht
  · exact ⟨rfl, rfl⟩
  · exact ⟨rfl, rfl⟩
  · exact ⟨rfl, rfl⟩
  · exact ⟨mix_cfg _ _ _ s, mix_inputs _ _ _ s⟩

theorem exec_keeps_cfg_inputs {i : Instr} {s t : State} (ht : exec i s = .next t) : s.SameCfgInputs t := by
  cases i with
  | addOsc arg => obtain ⟨-, rfl⟩ | ⟨-, rfl⟩ := execAddOsc_next ht <;> exact ⟨rfl, rfl⟩
  | removeFreq arg => obtain rfl := execRemoveFreq_next ht; exact ⟨rfl, rfl⟩
  | arm arg => obtain rfl | ⟨-, -, -, rfl⟩ := execArm_next (arg := arg) ht <;> exact ⟨rfl, rfl⟩
  | stop arg => obtain ⟨-, rfl⟩ | ⟨-, rfl⟩ := execStop_next (arg := arg) ht <;> exact ⟨rfl, rfl⟩
  | tick => exact execTick_keeps_cfg_inputs ht

theorem runInput_keeps_cfg_inputs {i : Input} {s t : State} (ht : runInput i s = .next t) : s.SameCfgInputs t := by
  cases i with
  | host m a =>
    obtain ⟨r, rfl⟩ | ⟨p, rfl⟩ | ⟨w, u, -, hu, rfl⟩ := hostAccess_next ht
    · exact ⟨rfl, rfl⟩
    · exact ⟨rfl, rfl⟩
    · obtain ⟨-, rfl⟩ | ⟨i, -, hexec⟩ := runCommand_next hu
      · exact ⟨rfl, rfl⟩
      · obtain ⟨hcfg, hinputs⟩ := exec_keeps_cfg_inputs hexec
        exact ⟨hcfg, hinputs⟩
  | timer => exact execTick_keeps_cfg_inputs ht
  | consumer addr n => obtain rfl := consumerRead_next ht; exact ⟨rfl, rfl⟩
  | reset => obtain rfl : resetBlock s = t := Host.Outcome.next.inj ht; exact ⟨rfl, rfl⟩

/-- A step keeps the parameters (R1) and takes at most its one input (R44). -/
theorem step_cfg_inputs {s t : State} (ht : step s = .next t) : t.cfg = s.cfg ∧ t.inputs = s.inputs.tail := by
  obtain ⟨hin, -, rfl⟩ | ⟨hin, -, htick⟩ | ⟨i, rest, hin, hrun⟩ := step_next ht
  · simp [hin]
  · obtain ⟨hcfg, hinputs⟩ := execTick_keeps_cfg_inputs htick
    simp [hcfg, hinputs, hin]
  · obtain ⟨hcfg, hinputs⟩ := runInput_keeps_cfg_inputs hrun
    simp [hcfg, hinputs, hin]

/-! ### Runs -/

/-- What keeps a run going: the invariant, memory behind the whole sample space (R54), consumer reads inside it
(R40(b)). -/
structure State.Unstoppable (s : State) : Prop where
  inv : s.Inv
  wholly_backed : backed s.cfg 0 s.cfg.sampleSpace = true
  reads_inside : ReadsInside s.cfg s.inputs

theorem ReadsInside.tail {c : Config} {l : List Input} (h : ReadsInside c l) : ReadsInside c l.tail :=
  fun addr n hmem => h addr n (List.mem_of_mem_tail hmem)

/-- Over wholly backed memory every region inside the sample space is backed. -/
theorem regionBacked_of_wholly_backed {c : Config} {p : StreamParams} (hbacked : backed c 0 c.sampleSpace = true)
    (hinside : p.base.toNat + p.bytes.toNat ≤ c.sampleSpace) : regionBacked c p = true :=
  backed_part hbacked (Nat.zero_le _) (by omega)

theorem State.Inv.not_tickRefused {s : State} (h : s.Inv) (r : Refusal) : ¬ s.TickRefused r := by
  rintro ⟨harmed, ⟨-, hnot⟩ | ⟨-, -, -, -, hrate⟩⟩
  · exact hnot (h.armed_backed harmed)
  · have hpos := (h.armed_params harmed).rate_pos
    simp [hrate] at hpos

theorem not_armRefused_of_wholly_backed {s : State} (hbacked : backed s.cfg 0 s.cfg.sampleSpace = true) :
    ¬ s.ArmRefused := by
  rintro ⟨-, hok, hnot⟩
  have hregion := regionBacked_of_wholly_backed hbacked (launchable_of_armParamsOk hok).region_inside
  simp [hregion] at hnot

theorem State.Unstoppable.exists_step {s : State} (h : s.Unstoppable) : ∃ t, step s = .next t := by
  refine exists_next_of_no_stop (fun r hfault => ?_) (fun r hrefused => ?_)
  · obtain ⟨addr, n, rest, hin, hout⟩ := step_fault_iff.mp hfault
    have hinside := h.reads_inside addr n (by simp [hin])
    omega
  · obtain ⟨-, htick⟩ | ⟨-, harm, -⟩ := step_refused_iff.mp hrefused
    · exact h.inv.not_tickRefused r htick
    · exact not_armRefused_of_wholly_backed h.wholly_backed harm

theorem State.Unstoppable.after_step {s t : State} (h : s.Unstoppable) (ht : step s = .next t) : t.Unstoppable := by
  obtain ⟨hcfg, hinputs⟩ := step_cfg_inputs ht
  refine ⟨step_keeps_inv h.inv ht, ?_, ?_⟩
  · rw [hcfg]; exact h.wholly_backed
  · rw [hcfg, hinputs]; exact h.reads_inside.tail

theorem State.Unstoppable.after_steps {s : State} (h : s.Unstoppable) (k : Nat) :
    ∃ t, runSteps k s = .next t ∧ t.Unstoppable := by
  induction k generalizing s with
  | zero => exact ⟨s, rfl, h⟩
  | succ k ih =>
    obtain ⟨u, hu⟩ := h.exists_step
    obtain ⟨t, hrun, ht⟩ := ih (h.after_step hu)
    exact ⟨t, by simpa only [runSteps, hu] using hrun, ht⟩

/-- Settles O44: what keeps a run going gives one step and holds again after it (`State.Unstoppable`), so by induction on
the number of steps. -/
theorem runsNeverStop : Obligations.RunsNeverStop := by
  intro k s hinv hbacked hreads
  obtain ⟨t, hrun, ht⟩ := State.Unstoppable.after_steps ⟨hinv, hbacked, hreads⟩ k
  exact ⟨t, hrun, ht.inv⟩

end Sys2Proof.Machine
end

section
/-! SUPPORT. The state through a step: O42 and O34 from the invariant, and the writers of the table (R22), O36. -/

namespace Sys2Proof.Machine

/-! ### The invariant -/

/-- Settles O42: `step_keeps_inv`, the case split over what a step can do. -/
theorem stepKeepsInv : Obligations.StepKeepsInv :=
  fun _ _ => step_keeps_inv

/-- A TICK while ARMED halts only by the fatal path: its cursor is outside the region (R125, R162). -/
theorem cursor_outside_of_tick_halts {s t : State} (harmed : s.sched = .armed) (ht : execTick s = .next t)
    (hhalted : t.sched = .halted) : cursorInRegion s = false := by
  obtain ⟨hnot, -⟩ | ⟨-, -, ⟨houtside, -⟩ | ⟨-, -, rfl⟩ | ⟨-, -, -, rfl⟩⟩ := execTick_next ht
  · exact absurd harmed hnot
  · exact houtside
  · simp [harmed] at hhalted
  · simp [harmed] at hhalted

/-- Settles O34: the invariant leaves a cursor outside the region only the value 0, which is outside an empty region
alone. -/
theorem fatalOnlyForEmptyRegion : Obligations.FatalOnlyForEmptyRegion := by
  intro s t hinv harmed ht hhalted
  have houtside : ¬ s.cursor.toNat < s.lat.bytes.toNat := by
    simp [← cursorInRegion_iff, cursor_outside_of_tick_halts harmed ht hhalted]
  have hzero : s.cursor.toNat = 0 := (hinv.armed_cursor harmed).resolve_left houtside
  have hempty : s.lat.bytes.toNat = 0 := by omega
  exact ⟨BitVec.eq_of_toNat_eq hempty, BitVec.eq_of_toNat_eq hzero⟩

/-! ### The writers of the table -/

theorem armed_of_execTick_table_ne {s t : State} (ht : execTick s = .next t) (hne : t.table ≠ s.table) :
    s.sched = .armed := by
  obtain ⟨-, rfl⟩ | ⟨harmed, -⟩ := execTick_next ht
  · exact absurd rfl hne
  · exact harmed

/-- The commands that write the table are the two table commands (R22). -/
theorem table_command_of_table_ne {i : Instr} (hi : i ≠ .tick) {s t : State} (ht : exec i s = .next t)
    (hne : t.table ≠ s.table) : (∃ arg, i = .addOsc arg) ∨ ∃ arg, i = .removeFreq arg := by
  cases i with
  | addOsc arg => exact .inl ⟨arg, rfl⟩
  | removeFreq arg => exact .inr ⟨arg, rfl⟩
  | arm arg => obtain rfl | ⟨-, -, -, rfl⟩ := execArm_next (arg := arg) ht <;> exact absurd rfl hne
  | stop arg => obtain ⟨-, rfl⟩ | ⟨-, rfl⟩ := execStop_next (arg := arg) ht <;> exact absurd rfl hne
  | tick => exact absurd rfl hi

theorem runCommand_table_ne {w : CmdWord} {s t : State} (ht : runCommand w s = .next t) (hne : t.table ≠ s.table) :
    (∃ arg, decode .host w = .ok (.addOsc arg)) ∨ ∃ arg, decode .host w = .ok (.removeFreq arg) := by
  obtain ⟨-, rfl⟩ | ⟨i, hd, hexec⟩ := runCommand_next ht
  · exact absurd rfl hne
  · have hi : i ≠ .tick := fun h => decode_host_ne_tick w (h ▸ hd)
    obtain ⟨arg, rfl⟩ | ⟨arg, rfl⟩ := table_command_of_table_ne hi hexec hne
    · exact .inl ⟨arg, hd⟩
    · exact .inr ⟨arg, hd⟩

/-- A host access that writes the table is a CMD write of a table command (R140, R143). -/
theorem hostAccess_table_ne {m : Nat} {a : Access} {s t : State} (ht : hostAccess m a s = .next t)
    (hne : t.table ≠ s.table) :
    ∃ w, a = .wr64 (s.cfg.hostAddress cmdOffset) w ∧
      ((∃ arg, decode .host w = .ok (.addOsc arg)) ∨ ∃ arg, decode .host w = .ok (.removeFreq arg)) := by
  obtain ⟨r, rfl⟩ | ⟨p, rfl⟩ | ⟨w, u, ha, hu, rfl⟩ := hostAccess_next ht
  · exact absurd rfl hne
  · exact absurd rfl hne
  · exact ⟨w, ha, runCommand_table_ne hu hne⟩

/-- Settles O36: a case split over what a step can do, and for the step's input over what that input can do. -/
theorem tableWriters : Obligations.TableWriters := by
  intro s t ht hne
  obtain ⟨-, -, rfl⟩ | ⟨hin, harmed, -⟩ | ⟨i, rest, hin, hrun⟩ := step_next ht
  · exact absurd rfl hne
  · exact .inr (.inr (.inl ⟨.inl ⟨hin, harmed⟩, harmed⟩))
  · cases i with
    | host m a =>
      obtain ⟨w, rfl, ⟨arg, hd⟩ | ⟨arg, hd⟩⟩ := hostAccess_table_ne hrun hne
      · exact .inl ⟨arg, m, w, rest, hin, hd⟩
      · exact .inr (.inl ⟨arg, m, w, rest, hin, hd⟩)
    | timer =>
      have harmed := armed_of_execTick_table_ne (s := s.setInputs rest) hrun hne
      exact .inr (.inr (.inl ⟨.inr ⟨rest, hin⟩, harmed⟩))
    | consumer addr n =>
      obtain rfl := consumerRead_next hrun
      exact absurd rfl hne
    | reset => exact .inr (.inr (.inr ⟨rest, hin⟩))

end Sys2Proof.Machine
end

section
/-! SUPPORT. The register map (R10) and STATUS (R12): O51, O50 and O52. -/

namespace Sys2Proof.Machine

/-! ### Offsets -/

/-- An offset of the TABLE window is that of its entry (R26). -/
theorem offset_tableEntry_of_window {o : Nat} (halign : o % 4 = 0) (hwindow : 0x40000 ≤ o) :
    (Reg.tableEntry ((o - 0x40000) / 4)).offset = o := by
  rw [Reg.offset]
  omega

/-- At a 4-aligned offset the map has the register whose offset that is (R10): the ten single registers, then the TABLE
window, then the reserved offsets. -/
theorem offset_regAt (c : Config) {o : Nat} (halign : o % 4 = 0) : (regAt c o).offset = o := by
  unfold regAt
  iterate 10
    split
    · next hreg => exact hreg.symm
  split
  · next hentry =>
    obtain ⟨hwindow, -⟩ := hentry
    exact offset_tableEntry_of_window halign hwindow
  · rfl

/-- Settles O51: `Reg.offset` is a left inverse of the map at 4-aligned offsets. -/
theorem noRegisterAliased : Obligations.NoRegisterAliased := by
  intro c o o' ho ho' heq
  calc o = (regAt c o).offset := (offset_regAt c ho).symm
    _ = (regAt c o').offset := by rw [heq]
    _ = o' := offset_regAt c ho'

/-- Settles O50: a 64-bit access at offset 0 is no bus error (R141), and a read there is answered at once. -/
theorem cmdReadsZero : Obligations.CmdReadsZero := by
  intro s m rest hin
  have hok : busErrorAt 64 cmdOffset = false := by decide
  rw [step_host (o := cmdOffset) hin rfl]
  simp only [Access.bits, hok]
  rfl

/-! ### STATUS -/

/-- The sum of R143 loses nothing to the 32 bits: its four terms do not overlap. -/
theorem toNat_statusWord (s : State) :
    (statusWord s).toNat =
      s.result.code.toNat + 4 * s.sched.code.toNat + 16 * s.sched.running.toNat + 32 * s.sched.fatal.toNat := by
  have hresult := s.result.code.isLt
  have hcode := s.sched.code.isLt
  have hrunning := s.sched.running.isLt
  have hfatal := s.sched.fatal.isLt
  rw [statusWord, BitVec.toNat_ofNat, Nat.mod_eq_of_lt (by omega)]

theorem toNat_running_eq_one_iff (x : SchedState) : x.running.toNat = 1 ↔ x = .armed := by
  cases x <;> decide

theorem toNat_fatal_eq_one_iff (x : SchedState) : x.fatal.toNat = 1 ↔ x = .halted := by
  cases x <;> decide

theorem extractLsb'_statusWord {s : State} {lo len : Nat} {x : BitVec len}
    (h : (statusWord s).toNat / 2 ^ lo % 2 ^ len = x.toNat) : (statusWord s).extractLsb' lo len = x :=
  BitVec.eq_of_toNat_eq (by rw [BitVec.extractLsb'_toNat, Nat.shiftRight_eq_div_pow, h])

theorem getElem_statusWord_iff (s : State) {i : Nat} (hi : i < 32) :
    (statusWord s)[i] = true ↔ (statusWord s).toNat / 2 ^ i % 2 = 1 := by
  rw [BitVec.getElem_eq_testBit_toNat, Nat.testBit_eq_decide_div_mod_eq, decide_eq_true_eq]

/-- Settles O52: each field is a quotient and a remainder of STATUS's sum, each term below the next one's weight. -/
theorem statusFields : Obligations.StatusFields := by
  intro s
  have hsum := toNat_statusWord s
  have hresult := s.result.code.isLt
  have hcode := s.sched.code.isLt
  have hrunning := s.sched.running.isLt
  have hfatal := s.sched.fatal.isLt
  refine ⟨extractLsb'_statusWord ?zeros, extractLsb'_statusWord (x := s.result.code) ?result,
    extractLsb'_statusWord (x := s.sched.code) ?state, ?running, ?fatal⟩
  case zeros => rw [BitVec.toNat_ofNat]; omega
  case result => omega
  case state => omega
  case running => rw [getElem_statusWord_iff, ← toNat_running_eq_one_iff]; omega
  case fatal => rw [getElem_statusWord_iff, ← toNat_fatal_eq_one_iff]; omega

end Sys2Proof.Machine
end

section
/-! SUPPORT. What a step does to sample memory and the event history (R46, R47), said once: nothing, a reset's emptied
history, or an ARMED tick. Then O39, O38 and O40, which read that case split, and O29, the tick's stops. -/

namespace Sys2Proof.Machine

/-! ### Runs -/

/-- What every step keeps holds at the end of every run. -/
theorem runSteps_keeps {P : State → Prop} (hstep : ∀ s t, P s → step s = .next t → P t) {k : Nat} {s t : State}
    (h : P s) (hrun : runSteps k s = .next t) : P t := by
  induction k generalizing s with
  | zero =>
    obtain rfl : s = t := Host.Outcome.next.inj hrun
    exact h
  | succ k ih =>
    simp only [runSteps] at hrun
    split at hrun
    · next u hu => exact ih (hstep s u h hu) hrun
    · cases hrun
    · cases hrun

theorem runSteps_succ_of_step {k : Nat} {s u : State} (h : step s = .next u) :
    runSteps (k + 1) s = runSteps k u := by
  simp only [runSteps, h]

/-- The first step of a run, and the rest of it. -/
theorem runSteps_succ_next {k : Nat} {s t : State} (h : runSteps (k + 1) s = .next t) :
    ∃ u, step s = .next u ∧ runSteps k u = .next t := by
  cases hu : step s with
  | next u => exact ⟨u, rfl, by rwa [runSteps_succ_of_step hu] at h⟩
  | fault r => simp [runSteps, hu] at h
  | refused r => simp [runSteps, hu] at h

/-! ### Memory and history through a step -/

/-- `t` has the memory and the event history of `s`. -/
def State.SameMemHistory (s t : State) : Prop := t.mem = s.mem ∧ t.history = s.history

/-- No command writes memory or records an event (R46). -/
theorem exec_same_mem_history {i : Instr} (hi : i ≠ .tick) {s t : State} (ht : exec i s = .next t) :
    s.SameMemHistory t := by
  cases i with
  | addOsc arg => obtain ⟨-, rfl⟩ | ⟨-, rfl⟩ := execAddOsc_next ht <;> exact ⟨rfl, rfl⟩
  | removeFreq arg => obtain rfl := execRemoveFreq_next ht; exact ⟨rfl, rfl⟩
  | arm arg => obtain rfl | ⟨-, -, -, rfl⟩ := execArm_next (arg := arg) ht <;> exact ⟨rfl, rfl⟩
  | stop arg => obtain ⟨-, rfl⟩ | ⟨-, rfl⟩ := execStop_next (arg := arg) ht <;> exact ⟨rfl, rfl⟩
  | tick => exact absurd rfl hi

theorem hostAccess_same_mem_history {m : Nat} {a : Access} {s t : State} (ht : hostAccess m a s = .next t) :
    s.SameMemHistory t := by
  obtain ⟨r, rfl⟩ | ⟨p, rfl⟩ | ⟨w, u, -, hu, rfl⟩ := hostAccess_next ht
  · exact ⟨rfl, rfl⟩
  · exact ⟨rfl, rfl⟩
  · obtain ⟨-, rfl⟩ | ⟨i, hd, hexec⟩ := runCommand_next hu
    · exact ⟨rfl, rfl⟩
    · have hsame := exec_same_mem_history (fun h => decode_host_ne_tick w (h ▸ hd)) hexec
      exact hsame

/-- Everything a step can do to memory and history: nothing, the history that a reset empties, or an ARMED tick. -/
theorem step_mem_history {s t : State} (ht : step s = .next t) :
    s.SameMemHistory t ∨ (s.RunsReset ∧ t.mem = s.mem ∧ t.history = []) ∨
      (s.RunsTick ∧ s.sched = .armed ∧ ∃ rest, execTick (s.setInputs rest) = .next t) := by
  obtain ⟨-, -, rfl⟩ | ⟨hin, harmed, htick⟩ | ⟨i, rest, hin, hrun⟩ := step_next ht
  · exact .inl ⟨rfl, rfl⟩
  · exact .inr (.inr ⟨.inl ⟨hin, harmed⟩, harmed, s.inputs, htick⟩)
  · cases i with
    | host m a => exact .inl (hostAccess_same_mem_history (s := s.setInputs rest) hrun)
    | timer =>
      by_cases harmed : s.sched = .armed
      · exact .inr (.inr ⟨.inr ⟨rest, hin⟩, harmed, rest, hrun⟩)
      · have hkeeps : runInput .timer (s.setInputs rest) = .next (s.setInputs rest) := execTick_of_not_armed harmed
        obtain rfl := Host.Outcome.next.inj (hkeeps.symm.trans hrun)
        exact .inl ⟨rfl, rfl⟩
    | consumer addr n =>
      obtain rfl := consumerRead_next hrun
      exact .inl ⟨rfl, rfl⟩
    | reset =>
      obtain rfl : resetBlock (s.setInputs rest) = t := Host.Outcome.next.inj hrun
      exact .inr (.inl ⟨⟨rest, hin⟩, rfl, rfl⟩)

/-! ### Memory as the replayed history -/

/-- `t`'s history is that of `s` and some more events, and its memory is that of `s` with their writes made. -/
def State.RecordsWrites (s t : State) : Prop := ∃ es, t.history = s.history ++ es ∧ t.mem = replay es s.mem

theorem replay_append (es es' : List HistoryEvent) (m : Memory) :
    replay (es ++ es') m = replay es' (replay es m) := by
  induction es generalizing m with
  | nil => rfl
  | cons e es ih => cases e <;> exact ih _

theorem State.SameMemHistory.recordsWrites {s t : State} (h : s.SameMemHistory t) : s.RecordsWrites t := by
  obtain ⟨hmem, hhistory⟩ := h
  exact ⟨[], by simpa using hhistory, hmem⟩

theorem State.RecordsWrites.refl (s : State) : s.RecordsWrites s :=
  State.SameMemHistory.recordsWrites ⟨rfl, rfl⟩

theorem State.RecordsWrites.trans {s t u : State} (hst : s.RecordsWrites t) (htu : t.RecordsWrites u) :
    s.RecordsWrites u := by
  obtain ⟨es, hhistory, hmem⟩ := hst
  obtain ⟨es', hhistory', hmem'⟩ := htu
  exact ⟨es ++ es', by rw [hhistory', hhistory, List.append_assoc], by rw [hmem', hmem, replay_append]⟩

/-- A frame's one event is its own write. -/
theorem mixFrame_recordsWrites (a r : Nat) (s : State) : s.RecordsWrites (mixFrame a r s) :=
  ⟨[.sampleWrite a frameBytes (frameWord (frameValue s.cfg s.table))], rfl, rfl⟩

theorem mix_recordsWrites (r n : Nat) (a : Nat) (s : State) : s.RecordsWrites (mix a r n s) := by
  induction n generalizing a s with
  | zero => exact .refl s
  | succ n ih => exact (mixFrame_recordsWrites a r s).trans (ih _ _)

/-- PERIOD_ELAPSED writes nothing. -/
theorem advanceAndNotify_recordsWrites (s : State) : s.RecordsWrites (advanceAndNotify s) :=
  ⟨[.periodElapsed], rfl, rfl⟩

theorem execTick_recordsWrites {s t : State} (ht : execTick s = .next t) : s.RecordsWrites t := by
  obtain ⟨-, rfl⟩ | ⟨-, -, ⟨-, rfl⟩ | ⟨-, -, rfl⟩ | ⟨-, -, -, rfl⟩⟩ := execTick_next ht
  · exact .refl t
  · exact State.SameMemHistory.recordsWrites ⟨rfl, rfl⟩
  · exact advanceAndNotify_recordsWrites s
  · exact (mix_recordsWrites _ _ _ s).trans (advanceAndNotify_recordsWrites _)

theorem step_recordsWrites {s t : State} (hreset : .reset ∉ s.inputs) (ht : step s = .next t) :
    s.RecordsWrites t := by
  obtain hsame | ⟨⟨rest, hin⟩, -⟩ | ⟨-, -, rest, htick⟩ := step_mem_history ht
  · exact hsame.recordsWrites
  · simp [hin] at hreset
  · exact execTick_recordsWrites (s := s.setInputs rest) htick

/-- Settles O39: every step without a reset records what it writes (`step_recordsWrites`), and `State.RecordsWrites`
composes, so it holds from the start of a run to each of its states. -/
theorem memoryIsHistoryReplayed : Obligations.MemoryIsHistoryReplayed := by
  intro k s t hreset hrun
  have hkeeps : ∀ u v, (.reset ∉ u.inputs ∧ s.RecordsWrites u) → step u = .next v →
      (.reset ∉ v.inputs ∧ s.RecordsWrites v) := by
    rintro u v ⟨hnone, hsu⟩ hstep
    refine ⟨?_, hsu.trans (step_recordsWrites hnone hstep)⟩
    rw [(step_cfg_inputs hstep).2]
    exact fun hmem => hnone (List.mem_of_mem_tail hmem)
  exact (runSteps_keeps hkeeps ⟨hreset, .refl s⟩ hrun).2

/-! ### Where a tick writes -/

/-- A TICK in which a byte reads differently fills its period, and the byte lies in it (R107, R125). -/
theorem execTick_read_ne {s t : State} {x : Nat} (ht : execTick s = .next t)
    (hne : Memory.read t.mem x ≠ Memory.read s.mem x) :
    regionBacked s.cfg s.lat = true ∧ cursorInRegion s = true ∧ periodFits s = true ∧
      mixAddress s ≤ x ∧ x < mixAddress s + 4 * s.lat.period.toNat := by
  obtain ⟨-, rfl⟩ | ⟨-, hbacked, ⟨-, rfl⟩ | ⟨-, -, rfl⟩ | ⟨hcursor, hfits, -, rfl⟩⟩ := execTick_next ht
  · exact absurd rfl hne
  · exact absurd rfl hne
  · exact absurd rfl hne
  · refine ⟨hbacked, hcursor, hfits, ?_⟩
    by_contra hout
    exact hne (by rw [advanceAndNotify_mem, read_mix, if_neg hout])

/-- Settles O38: only an ARMED tick touches memory (`step_mem_history`), a tick writes its period alone
(`execTick_read_ne`), and the period lies in a region that is backed, hence inside the sample space. -/
theorem writesStayInsideRegion : Obligations.WritesStayInsideRegion := by
  intro s t x ht hne
  obtain ⟨hmem, -⟩ | ⟨-, hmem, -⟩ | ⟨hruns, harmed, rest, htick⟩ := step_mem_history ht
  · exact absurd (by rw [hmem]) hne
  · exact absurd (by rw [hmem]) hne
  · obtain ⟨hbacked, hcursor, hfits, hlo, hhi⟩ := execTick_read_ne htick hne
    simp only [cursorInRegion_iff, periodFits_iff, mixAddress, setInputs_cursor, setInputs_lat]
      at hcursor hfits hlo hhi
    have hinside : s.lat.base.toNat + s.lat.bytes.toNat ≤ s.cfg.sampleSpace :=
      backed_inside hbacked (Nat.zero_lt_of_lt hcursor)
    exact ⟨hruns, harmed, hlo, hhi, by omega, by omega⟩

/-! ### From STOP on -/

theorem decode_host_stop (arg : Word) : decode .host (encode (.stop arg)) = .ok (.stop arg) := by
  simp [decode, decodeHost, encode, Laws.rsvdField_commandWord, Laws.opField_commandWord, Laws.argField_commandWord]

/-- A CMD write of a word that decodes runs its instruction and then responds (R62, R142). -/
theorem step_command {s : State} {m : Nat} {w : CmdWord} {rest : List Input} {i : Instr}
    (hin : s.inputs = .host m (.wr64 (s.cfg.hostAddress cmdOffset) w) :: rest) (hd : decode .host w = .ok i) :
    step s = andThen (exec i (s.setInputs rest)) fun t => t.respond m (.okayResult t.result) := by
  have hrun : runCommand w (s.setInputs rest) = exec i (s.setInputs rest) := by simp only [runCommand, hd]
  rw [step_of_input hin, ← hrun]
  exact hostAccess_command m w (s.setInputs rest)

/-- STOP leaves no block ARMED, and memory and history as they were (R121). -/
theorem step_stop {s t : State} {m : Nat} {arg : Word} {rest : List Input}
    (hin : s.inputs = .host m (.wr64 (s.cfg.hostAddress cmdOffset) (encode (.stop arg))) :: rest)
    (ht : step s = .next t) : t.sched ≠ .armed ∧ s.SameMemHistory t := by
  rw [step_command hin (decode_host_stop arg)] at ht
  obtain ⟨u, hu, rfl⟩ := andThen_next ht
  obtain ⟨-, rfl⟩ | ⟨hnot, rfl⟩ := execStop_next (arg := arg) hu
  · exact ⟨by simp, rfl, rfl⟩
  · exact ⟨hnot, rfl, rfl⟩

theorem armed_of_execTick_armed {s t : State} (ht : execTick s = .next t) (harmed : t.sched = .armed) :
    s.sched = .armed := by
  obtain ⟨-, rfl⟩ | ⟨hbefore, -⟩ := execTick_next ht
  · exact harmed
  · exact hbefore

/-- The one command that brings the block to ARMED is ARM (R122). -/
theorem arm_of_exec_armed {i : Instr} {s t : State} (ht : exec i s = .next t) (hnot : s.sched ≠ .armed)
    (harmed : t.sched = .armed) : ∃ arg, i = .arm arg := by
  cases i with
  | addOsc arg => obtain ⟨-, rfl⟩ | ⟨-, rfl⟩ := execAddOsc_next ht <;> exact absurd harmed hnot
  | removeFreq arg => obtain rfl := execRemoveFreq_next ht; exact absurd harmed hnot
  | arm arg => exact ⟨arg, rfl⟩
  | stop arg =>
    obtain ⟨hbefore, -⟩ | ⟨-, rfl⟩ := execStop_next (arg := arg) ht
    · exact absurd hbefore hnot
    · exact absurd harmed hnot
  | tick => exact absurd (armed_of_execTick_armed ht harmed) hnot

/-- The one step that brings the block to ARMED is a CMD write of ARM (R122). -/
theorem runsCommand_arm_of_step_armed {s t : State} (ht : step s = .next t) (hnot : s.sched ≠ .armed)
    (harmed : t.sched = .armed) : ∃ arg, s.RunsCommand (.arm arg) := by
  obtain ⟨-, -, rfl⟩ | ⟨-, hbefore, -⟩ | ⟨i, rest, hin, hrun⟩ := step_next ht
  · exact absurd harmed hnot
  · exact absurd hbefore hnot
  · cases i with
    | host m a =>
      obtain ⟨r, rfl⟩ | ⟨p, rfl⟩ | ⟨w, u, rfl, hu, rfl⟩ := hostAccess_next hrun
      · exact absurd harmed hnot
      · exact absurd harmed hnot
      · obtain ⟨-, rfl⟩ | ⟨i, hd, hexec⟩ := runCommand_next hu
        · exact absurd harmed hnot
        · obtain ⟨arg, rfl⟩ := arm_of_exec_armed hexec hnot harmed
          exact ⟨arg, m, w, rest, hin, hd⟩
    | timer => exact absurd (armed_of_execTick_armed hrun harmed) hnot
    | consumer addr n =>
      obtain rfl := consumerRead_next hrun
      exact absurd harmed hnot
    | reset =>
      obtain rfl : resetBlock (s.setInputs rest) = t := Host.Outcome.next.inj hrun
      simp at harmed

/-- The block is not ARMED, and no ARM is to come. -/
structure State.Silent (s : State) : Prop where
  not_armed : s.sched ≠ .armed
  no_arm : ∀ i ∈ s.inputs, ¬ i.IsCommand s.cfg fun j => ∃ a, j = .arm a

theorem State.Silent.after_step {s t : State} (h : s.Silent) (ht : step s = .next t) : t.Silent := by
  refine ⟨fun harmed => ?_, ?_⟩
  · obtain ⟨arg, m, w, rest, hin, hd⟩ := runsCommand_arm_of_step_armed ht h.not_armed harmed
    exact h.no_arm _ (by rw [hin]; exact List.mem_cons_self) ⟨m, w, _, rfl, hd, arg, rfl⟩
  · obtain ⟨hcfg, hinputs⟩ := step_cfg_inputs ht
    rw [hcfg, hinputs]
    exact fun i hi => h.no_arm i (List.mem_of_mem_tail hi)

/-- While the block is not ARMED no step writes memory or records an event (R48(c)); a reset may empty the history. -/
theorem State.Silent.step_writes_nothing {s t : State} (h : s.Silent) (ht : step s = .next t) :
    t.mem = s.mem ∧ t.history ⊆ s.history := by
  obtain ⟨hmem, hhistory⟩ | ⟨-, hmem, hhistory⟩ | ⟨-, harmed, -⟩ := step_mem_history ht
  · exact ⟨hmem, hhistory ▸ List.Subset.refl _⟩
  · exact ⟨hmem, hhistory ▸ List.nil_subset _⟩
  · exact absurd harmed h.not_armed

/-- Settles O40: STOP makes the block silent (`step_stop`); every step keeps it so (`State.Silent.after_step`), and a
step of a silent block writes nothing. -/
theorem noWriteAfterStop : Obligations.NoWriteAfterStop := by
  intro k s t m arg rest hin hno hrun
  obtain ⟨u, hstop, hrun⟩ := runSteps_succ_next hrun
  obtain ⟨hnot, hmem, hhistory⟩ := step_stop hin hstop
  have hsilent : u.Silent := by
    obtain ⟨hcfg, hinputs⟩ := step_cfg_inputs hstop
    refine ⟨hnot, ?_⟩
    rw [hcfg, hinputs, hin]
    exact hno
  have hkeeps : ∀ v v', (v.Silent ∧ v.mem = s.mem ∧ v.history ⊆ s.history) → step v = .next v' →
      (v'.Silent ∧ v'.mem = s.mem ∧ v'.history ⊆ s.history) := by
    rintro v v' ⟨hv, hvmem, hvhistory⟩ hstep
    obtain ⟨hmem', hhistory'⟩ := hv.step_writes_nothing hstep
    exact ⟨hv.after_step hstep, hmem'.trans hvmem, List.Subset.trans hhistory' hvhistory⟩
  obtain ⟨hend, hsame, hsub⟩ := runSteps_keeps hkeeps ⟨hsilent, hmem, hhistory ▸ List.Subset.refl _⟩ hrun
  exact ⟨hsame, hend.not_armed, hsub⟩

/-! ### Where a tick stops -/

/-- Settles O29: the refusals of a TICK are `State.TickRefused`, and it never faults. -/
theorem tickStopsExactly : Obligations.TickStopsExactly := by
  intro s
  refine ⟨fun harmed hnot => ?_, fun harmed hbacked hcursor hfits hrate => ?_, fun hregion hfill => ?_⟩
  · exact execTick_refused_iff.mpr ⟨harmed, .inl ⟨rfl, hnot⟩⟩
  · exact execTick_refused_iff.mpr
      ⟨harmed, .inr ⟨rfl, hbacked, (cursorInRegion_iff s).mpr hcursor, (periodFits_iff s).mpr hfits, hrate⟩⟩
  · refine exists_next_of_no_stop (execTick_ne_fault s) fun r hrefused => ?_
    obtain ⟨harmed, ⟨-, hnot⟩ | ⟨-, -, hcursor, hfits, hrate⟩⟩ := execTick_refused_iff.mp hrefused
    · exact hregion ⟨harmed, hnot⟩
    · exact hfill ⟨harmed, (cursorInRegion_iff s).mp hcursor, (periodFits_iff s).mp hfits, hrate⟩

end Sys2Proof.Machine
end

section
/-! SUPPORT. Adds of any masters interleaved with ticks (R49): the table's amplitudes and frequencies, with those of the
adds still to come, are the same after every step; O14. -/

namespace Sys2Proof.Machine

/-! ### Amplitude and frequency of a descriptor -/

/-- The two fields of a descriptor that a tick keeps (R92(d)). -/
def ampFreqOf (e : Word) : BitVec 7 × BitVec 16 := (ampOf e, freqOf e)

theorem ampOf_setPhase (e : Word) (p : Int) : ampOf (setPhase e p) = ampOf e := by
  have hamp := (ampOf e).isLt
  apply BitVec.eq_of_toNat_eq
  rw [toNat_ampOf, setPhase, toNat_encodeDescriptor, trunc_ampOf]
  omega

theorem freqOf_setPhase (e : Word) (p : Int) : freqOf (setPhase e p) = freqOf e := by
  have hamp := (ampOf e).isLt
  have hphase := trunc_lt 9 p
  have hfreq := (freqOf e).isLt
  apply BitVec.eq_of_toNat_eq
  rw [toNat_freqOf, setPhase, toNat_encodeDescriptor, trunc_ampOf, trunc_freqOf]
  omega

@[simp] theorem ampFreqOf_advancePhase (r : Nat) (e : Word) : ampFreqOf (advancePhase r e) = ampFreqOf e := by
  simp only [ampFreqOf, advancePhase, ampOf_setPhase, freqOf_setPhase]

theorem map_ampFreqOf_mix (a r n : Nat) (s : State) :
    (mix a r n s).table.map ampFreqOf = s.table.map ampFreqOf := by
  have hiterate : ampFreqOf ∘ (advancePhase r)^[n] = ampFreqOf :=
    Function.iterate_invariant (funext (ampFreqOf_advancePhase r)) n
  rw [mix_table, List.map_map, hiterate]

theorem execTick_map_ampFreqOf {s t : State} (ht : execTick s = .next t) :
    t.table.map ampFreqOf = s.table.map ampFreqOf := by
  obtain ⟨-, rfl⟩ | ⟨-, -, ⟨-, rfl⟩ | ⟨-, -, rfl⟩ | ⟨-, -, -, rfl⟩⟩ := execTick_next ht
  · rfl
  · rfl
  · rfl
  · exact map_ampFreqOf_mix _ _ _ s

/-! ### The adds among the inputs -/

theorem decode_host_addOsc {w : CmdWord} {d : Word} (h : decode .host w = .ok (.addOsc d)) :
    opField w = 0x01#8 ∧ argField w = d := by
  simp only [decode, decodeHost] at h
  split_ifs at h with hrsvd hop
  · exact ⟨hop, by simpa using h⟩
  all_goals cases h

theorem addedDescriptors_cons_addOsc (c : Config) {m : Nat} {w : CmdWord} {d : Word} {l : List Input}
    (h : decode .host w = .ok (.addOsc d)) :
    addedDescriptors c (.host m (.wr64 (c.hostAddress cmdOffset) w) :: l) = d :: addedDescriptors c l := by
  obtain ⟨hop, harg⟩ := decode_host_addOsc h
  simp [addedDescriptors, hop, harg]

/-- The amplitudes and frequencies of the table, and of what the adds to come put after it. -/
def State.ampFreqsToCome (s : State) : List (BitVec 7 × BitVec 16) :=
  (s.table ++ addedDescriptors s.cfg s.inputs).map ampFreqOf

/-- A TICK of the timer in a state with the invariant answers, and keeps amplitudes and frequencies. -/
theorem State.Inv.step_timer {s : State} {rest : List Input} (h : s.Inv) (hin : s.inputs = .timer :: rest) :
    ∃ u, step s = .next u ∧ u.ampFreqsToCome = s.ampFreqsToCome := by
  have hanswers : ∃ u, execTick (s.setInputs rest) = .next u :=
    exists_next_of_no_stop (execTick_ne_fault _)
      fun r hrefused => (h.setInputs rest).not_tickRefused r (execTick_refused_iff.mp hrefused)
  obtain ⟨u, htick⟩ := hanswers
  have hstep : step s = .next u := by rw [step_of_input hin]; exact htick
  obtain ⟨hcfg, hinputs⟩ := step_cfg_inputs hstep
  refine ⟨u, hstep, ?_⟩
  simp only [State.ampFreqsToCome, List.map_append, execTick_map_ampFreqOf htick, setInputs_table, hcfg, hinputs, hin,
    List.tail_cons, addedDescriptors]

/-- An ADD_OSC with room moves its descriptor from the inputs to the table's end (R90). -/
theorem step_addOsc {s : State} {m : Nat} {w : CmdWord} {d : Word} {rest : List Input}
    (hin : s.inputs = .host m (.wr64 (s.cfg.hostAddress cmdOffset) w) :: rest) (hd : decode .host w = .ok (.addOsc d))
    (hroom : s.table.length < s.cfg.tableCapacity) :
    ∃ u, step s = .next u ∧ u.ampFreqsToCome = s.ampFreqsToCome := by
  obtain ⟨v, hexec⟩ := execAddOsc_answers d (s.setInputs rest)
  obtain ⟨hfull, -⟩ | ⟨-, rfl⟩ := execAddOsc_next hexec
  · exact absurd hfull hroom.ne
  · refine ⟨_, by rw [step_command hin hd, exec, hexec]; rfl, ?_⟩
    simp [State.ampFreqsToCome, hin, addedDescriptors_cons_addOsc s.cfg hd]

/-! ### The run -/

/-- Only adds and ticks are to come, and the table has room for all of the adds. -/
structure State.AddsFit (s : State) : Prop where
  inv : s.Inv
  adds_or_ticks : ∀ i ∈ s.inputs, i = .timer ∨ i.IsCommand s.cfg fun j => ∃ d, j = .addOsc d
  room : s.ampFreqsToCome.length ≤ s.cfg.tableCapacity

theorem State.AddsFit.exists_step {s : State} (h : s.AddsFit) {i : Input} {rest : List Input}
    (hin : s.inputs = i :: rest) : ∃ u, step s = .next u ∧ u.ampFreqsToCome = s.ampFreqsToCome := by
  obtain rfl | ⟨m, w, _, rfl, hd, d, rfl⟩ := h.adds_or_ticks i (by simp [hin])
  · exact h.inv.step_timer hin
  · have hroom := h.room
    simp only [State.ampFreqsToCome, hin, addedDescriptors_cons_addOsc s.cfg hd, List.length_map, List.length_append,
      List.length_cons] at hroom
    exact step_addOsc hin hd (by omega)

theorem State.AddsFit.after_step {s u : State} (h : s.AddsFit) (hstep : step s = .next u)
    (hsame : u.ampFreqsToCome = s.ampFreqsToCome) : u.AddsFit := by
  obtain ⟨hcfg, hinputs⟩ := step_cfg_inputs hstep
  refine ⟨step_keeps_inv h.inv hstep, ?_, ?_⟩
  · rw [hcfg, hinputs]
    exact fun i hi => h.adds_or_ticks i (List.mem_of_mem_tail hi)
  · rw [hsame, hcfg]
    exact h.room

theorem State.AddsFit.run {s : State} (h : s.AddsFit) :
    ∃ t, runSteps s.inputs.length s = .next t ∧ t.inputs = [] ∧ t.ampFreqsToCome = s.ampFreqsToCome := by
  induction hin : s.inputs generalizing s with
  | nil => exact ⟨s, rfl, hin, rfl⟩
  | cons i rest ih =>
    obtain ⟨u, hstep, hsame⟩ := h.exists_step hin
    have hrest : u.inputs = rest := by rw [(step_cfg_inputs hstep).2, hin, List.tail_cons]
    obtain ⟨t, hrun, hdone, hend⟩ := ih (h.after_step hstep hsame) hrest
    exact ⟨t, by rw [List.length_cons, runSteps_succ_of_step hstep, hrun], hdone, hend.trans hsame⟩

/-- Settles O14: every step keeps `State.ampFreqsToCome`, and with no input left it is the table's own. -/
theorem interleavedAddsAllAppear : Obligations.InterleavedAddsAllAppear := by
  intro s hlaunch hinputs hroom
  have hfit : s.AddsFit := ⟨hlaunch.inv, hinputs, by simpa [State.ampFreqsToCome] using hroom⟩
  obtain ⟨t, hrun, hdone, hsame⟩ := hfit.run
  have htable : t.ampFreqsToCome = t.table.map ampFreqOf := by
    simp [State.ampFreqsToCome, hdone, addedDescriptors]
  exact ⟨t, hrun, hdone, htable.symm.trans hsame⟩

end Sys2Proof.Machine
end

section
/-! SUPPORT. The consumer's reads (R46, R47): O55 and O56. -/

namespace Sys2Proof.Machine

theorem sampleByte_eq (s : State) (a : Nat) :
    s.sampleByte a = (Memory.read s.mem a).getD (Config.launchByte a) := by
  unfold State.sampleByte
  cases Memory.read s.mem a <;> rfl

@[simp] theorem length_memRead (s : State) (addr n : Nat) : (s.memRead addr n).length = n := by
  induction n generalizing addr with
  | zero => rfl
  | succ n ih => simp [State.memRead, ih]

@[simp] theorem memRead_setInputs (s : State) (l : List Input) (addr n : Nat) :
    (s.setInputs l).memRead addr n = s.memRead addr n := by
  induction n generalizing addr with
  | zero => rfl
  | succ n ih => rw [State.memRead, State.memRead, ih]; rfl

/-- Byte `k` of a `MemRead` is the byte at the `k`-th address (R5). -/
theorem getElem?_memRead (s : State) {addr n k : Nat} (hk : k < n) :
    (s.memRead addr n)[k]? = some (s.sampleByte (addr + k)) := by
  induction n generalizing addr k with
  | zero => omega
  | succ n ih =>
    cases k with
    | zero => rfl
    | succ k =>
      rw [State.memRead, List.getElem?_cons_succ, ih (by omega), Nat.add_assoc, Nat.add_comm 1 k]

theorem step_consumer_inside {s : State} {addr n : Nat} {rest : List Input} (hin : s.inputs = .consumer addr n :: rest)
    (hinside : addr + n ≤ s.cfg.sampleSpace) :
    step s = .next ((s.setInputs rest).output (.consumed addr (s.memRead addr n))) := by
  have hok : inSampleSpace s.cfg addr n = true := (inSampleSpace_iff _ _ _).mpr hinside
  simp [step_of_input hin, runInput, consumerRead, hok]

/-- Settles O55: a read inside the space shows `memRead`, whose bytes are `sampleByte` of their addresses. -/
theorem consumerSeesLatestBytes : Obligations.ConsumerSeesLatestBytes := by
  intro s addr n rest hin hinside
  refine ⟨s.memRead addr n, length_memRead s addr n, fun k hk => ?_, step_consumer_inside hin hinside⟩
  rw [getElem?_memRead s hk, sampleByte_eq]

/-- Settles O56: outside the sample space by `step_fault_iff`, inside it by `step_consumer_inside`. -/
theorem consumerStopsOnlyOutside : Obligations.ConsumerStopsOnlyOutside := by
  intro s addr n rest hin
  exact ⟨fun hout => step_fault_iff.mpr ⟨addr, n, rest, hin, hout⟩,
    fun hinside => ⟨_, step_consumer_inside hin hinside⟩⟩

end Sys2Proof.Machine
end

section
/-! SUPPORT. The decoder of each port against the encoder and against the opcode map's rows (R62 to R65, R68): O1 to
O4. -/

namespace Sys2Proof.Machine

/-! ### A command word and its fields -/

/-- `{RSVD = 0, OP, ARG}` is the one word with these fields (R62). -/
theorem commandWord_eq_iff {op : Byte} {arg : Word} {w : CmdWord} :
    commandWord op arg = w ↔ rsvdField w = 0#24 ∧ opField w = op ∧ argField w = arg := by
  constructor
  · rintro rfl
    exact ⟨Laws.rsvdField_commandWord op arg, Laws.opField_commandWord op arg, Laws.argField_commandWord op arg⟩
  · rintro ⟨hrsvd, rfl, rfl⟩
    have hhigh : w.toNat / 2 ^ 40 % 2 ^ 24 = 0 := by
      simpa [rsvdField, Nat.shiftRight_eq_div_pow] using congrArg BitVec.toNat hrsvd
    apply BitVec.eq_of_toNat_eq
    rw [Laws.toNat_commandWord]
    simp only [opField, argField, BitVec.extractLsb'_toNat, Nat.shiftRight_eq_div_pow]
    have hw := w.isLt
    omega

/-- R62's fields under the opcode map's mask of a command: `RSVD` and `OP` stay, `ARG` is cleared. -/
theorem and_commandMask_eq_iff {op : Byte} {w : CmdWord} :
    w &&& 0xFFFFFFFF00000000#64 = commandWord op 0#32 ↔ rsvdField w = 0#24 ∧ opField w = op := by
  have hrsvd : rsvdField (w &&& 0xFFFFFFFF00000000#64) = rsvdField w := by
    rw [rsvdField, BitVec.extractLsb'_and]
    exact BitVec.and_allOnes
  have hop : opField (w &&& 0xFFFFFFFF00000000#64) = opField w := by
    rw [opField, BitVec.extractLsb'_and]
    exact BitVec.and_allOnes
  have harg : argField (w &&& 0xFFFFFFFF00000000#64) = 0#32 := by
    rw [argField, BitVec.extractLsb'_and]
    exact BitVec.and_zero
  rw [eq_comm, commandWord_eq_iff, hrsvd, hop, harg]
  simp

/-! ### Round trips -/

theorem decode_host_encode {i : Instr} (hwf : Instr.wf .host i = true) : decode .host (encode i) = .ok i := by
  cases i with
  | addOsc arg | removeFreq arg | arm arg | stop arg =>
    simp [decode, decodeHost, encode, Laws.rsvdField_commandWord, Laws.opField_commandWord, Laws.argField_commandWord]
  | tick => cases hwf

/-- Settles O1: the host's port reads back the three fields of a command word, the timer's port knows one word. -/
theorem encodeThenDecode : Obligations.EncodeThenDecode := by
  intro src i hwf
  cases src with
  | host => exact decode_host_encode hwf
  | timer =>
    cases i with
    | addOsc arg | removeFreq arg | arm arg | stop arg => cases hwf
    | tick => rfl

/-- Everything the host's port decodes (R62): a word with `RSVD = 0` and one of the four assigned `OP`s. -/
theorem decode_host_eq_ok {w : CmdWord} {i : Instr} (h : decode .host w = .ok i) :
    rsvdField w = 0#24 ∧
      ((opField w = 0x01#8 ∧ i = .addOsc (argField w)) ∨ (opField w = 0x02#8 ∧ i = .removeFreq (argField w)) ∨
        (opField w = 0x03#8 ∧ i = .arm (argField w)) ∨ (opField w = 0x04#8 ∧ i = .stop (argField w))) := by
  simp only [decode, decodeHost] at h
  split_ifs at h with hrsvd hadd hremove harm hstop htick <;> cases h
  · exact ⟨by simpa using hrsvd, .inl ⟨hadd, rfl⟩⟩
  · exact ⟨by simpa using hrsvd, .inr (.inl ⟨hremove, rfl⟩)⟩
  · exact ⟨by simpa using hrsvd, .inr (.inr (.inl ⟨harm, rfl⟩))⟩
  · exact ⟨by simpa using hrsvd, .inr (.inr (.inr ⟨hstop, rfl⟩))⟩

theorem decode_timer_eq_ok {w : CmdWord} {i : Instr} (h : decode .timer w = .ok i) : w = tickEventWord ∧ i = .tick := by
  simp only [decode, decodeTimer] at h
  split_ifs at h with hw
  cases h
  exact ⟨hw, rfl⟩

/-- Settles O2: a command word is made of the three fields that the host's port read. -/
theorem decodeThenEncode : Obligations.DecodeThenEncode := by
  intro src w i h
  cases src with
  | host =>
    obtain ⟨hrsvd, ⟨hop, rfl⟩ | ⟨hop, rfl⟩ | ⟨hop, rfl⟩ | ⟨hop, rfl⟩⟩ := decode_host_eq_ok h
    all_goals exact ⟨commandWord_eq_iff.mpr ⟨hrsvd, hop, rfl⟩, rfl⟩
  | timer =>
    obtain ⟨rfl, rfl⟩ := decode_timer_eq_ok h
    exact ⟨rfl, rfl⟩

/-! ### Which words decode -/

/-- A host's word is legal exactly with `RSVD = 0` and `OP` in 0x01..0x04 (R63, R65). -/
theorem decode_host_ok_iff {w : CmdWord} :
    (∃ i, decode .host w = .ok i) ↔
      rsvdField w = 0#24 ∧ (opField w = 0x01#8 ∨ opField w = 0x02#8 ∨ opField w = 0x03#8 ∨ opField w = 0x04#8) := by
  constructor
  · rintro ⟨i, h⟩
    obtain ⟨hrsvd, hcases⟩ := decode_host_eq_ok h
    exact ⟨hrsvd, hcases.imp And.left (Or.imp And.left (Or.imp And.left And.left))⟩
  · have hword : ∀ i, Instr.wf .host i = true → encode i = w → ∃ i, decode .host w = .ok i :=
      fun i hwf hi => ⟨i, hi ▸ decode_host_encode hwf⟩
    rintro ⟨hrsvd, hop | hop | hop | hop⟩
    · exact hword (.addOsc (argField w)) rfl (commandWord_eq_iff.mpr ⟨hrsvd, hop, rfl⟩)
    · exact hword (.removeFreq (argField w)) rfl (commandWord_eq_iff.mpr ⟨hrsvd, hop, rfl⟩)
    · exact hword (.arm (argField w)) rfl (commandWord_eq_iff.mpr ⟨hrsvd, hop, rfl⟩)
    · exact hword (.stop (argField w)) rfl (commandWord_eq_iff.mpr ⟨hrsvd, hop, rfl⟩)

theorem decode_timer_ok_iff {w : CmdWord} : (∃ i, decode .timer w = .ok i) ↔ w = tickEventWord := by
  constructor
  · rintro ⟨i, h⟩
    exact (decode_timer_eq_ok h).1
  · rintro rfl
    exact ⟨.tick, rfl⟩

/-- A host's word matches a row of the opcode map exactly with `RSVD = 0` and that row's `OP`. -/
theorem host_row_matches_iff {w : CmdWord} :
    (∃ row ∈ opcodeRows, row.source = .host ∧ w &&& row.mask = row.pattern) ↔
      rsvdField w = 0#24 ∧ (opField w = 0x01#8 ∨ opField w = 0x02#8 ∨ opField w = 0x03#8 ∨ opField w = 0x04#8) := by
  have hadd : (0x0000000100000000#64 : CmdWord) = commandWord 0x01#8 0#32 := rfl
  have hremove : (0x0000000200000000#64 : CmdWord) = commandWord 0x02#8 0#32 := rfl
  have harm : (0x0000000300000000#64 : CmdWord) = commandWord 0x03#8 0#32 := rfl
  have hstop : (0x0000000400000000#64 : CmdWord) = commandWord 0x04#8 0#32 := rfl
  simp [opcodeRows, hadd, hremove, harm, hstop, and_commandMask_eq_iff, ← and_or_left]

/-- The timer's one row compares the whole word (R68). -/
theorem timer_row_matches_iff {w : CmdWord} :
    (∃ row ∈ opcodeRows, row.source = .timer ∧ w &&& row.mask = row.pattern) ↔ w = tickEventWord := by
  have hmask : w &&& 0xFFFFFFFFFFFFFFFF#64 = w := BitVec.and_allOnes
  simp [opcodeRows, hmask, tickEventWord]

/-- Settles O4: at each port, decoder and rows come to the same condition on the word's fields. -/
theorem decoderMatchesOpcodeRows : Obligations.DecoderMatchesOpcodeRows := by
  intro src w
  cases src with
  | host => exact decode_host_ok_iff.trans host_row_matches_iff.symm
  | timer => exact decode_timer_ok_iff.trans timer_row_matches_iff.symm

/-- Settles O3: five of the words are encodings, so O1 decodes them; the other two fail the host port's checks. -/
theorem specWordsDecode : Obligations.SpecWordsDecode :=
  ⟨encodeThenDecode .host (.addOsc 0x01E00064#32) rfl, encodeThenDecode .host (.removeFreq 0x010001E0#32) rfl,
    encodeThenDecode .host (.arm 0#32) rfl, encodeThenDecode .host (.stop 0#32) rfl,
    encodeThenDecode .timer .tick rfl, rfl, rfl⟩

end Sys2Proof.Machine
end

section
/-! SUPPORT. The step that fetches a CMD write: an illegal word (R65), a command and its response (R62, R142), and a word
that `State.withFetchWord` places (log 2): O5, O6 and O8. -/

namespace Sys2Proof.Machine

/-! ### Illegal words -/

/-- A CMD write of a word that the host's port rejects sets the result and responds (R65). -/
theorem step_illegal_command {s : State} {m : Nat} {w : CmdWord} {rest : List Input}
    (hin : s.inputs = .host m (.wr64 (s.cfg.hostAddress cmdOffset) w) :: rest)
    (hillegal : ¬ ∃ i, decode .host w = .ok i) :
    step s = .next (((s.setInputs rest).setResult .invalidCommand).respond m (.okayResult .invalidCommand)) := by
  have hrun : runCommand w (s.setInputs rest) = finishCommand .invalidCommand (s.setInputs rest) := by
    cases hd : decode .host w with
    | ok i => exact absurd ⟨i, hd⟩ hillegal
    | error e => simp only [runCommand, hd]
  have haccess := hostAccess_command m w (s.setInputs rest)
  rw [hrun] at haccess
  rw [step_of_input hin]
  exact haccess

/-- Settles O5: R65's words are those that `decode_host_ok_iff` leaves out. -/
theorem illegalCommandChangesOnlyResult : Obligations.IllegalCommandChangesOnlyResult := by
  intro s m w rest hin hword
  refine step_illegal_command hin fun hlegal => ?_
  obtain ⟨hrsvd, hop⟩ := decode_host_ok_iff.mp hlegal
  have hrange : 1 ≤ (opField w).toNat ∧ (opField w).toNat ≤ 4 := by
    obtain hop | hop | hop | hop := hop <;> simp [hop]
  obtain hbits | hzero | hlarge := hword
  · exact hbits hrsvd
  · exact absurd hzero (Nat.one_le_iff_ne_zero.mp hrange.1)
  · exact absurd hlarge (Nat.not_lt.mpr hrange.2)

/-! ### Commands -/

theorem execTick_keeps_outputs {s t : State} (ht : execTick s = .next t) : t.outputs = s.outputs := by
  obtain ⟨-, rfl⟩ | ⟨-, -, ⟨-, rfl⟩ | ⟨-, -, rfl⟩ | ⟨-, -, -, rfl⟩⟩ := execTick_next ht
  · rfl
  · rfl
  · rfl
  · exact mix_outputs _ _ _ s

/-- No instruction responds by itself; the access that carries it does (R142). -/
theorem exec_keeps_outputs {i : Instr} {s t : State} (ht : exec i s = .next t) : t.outputs = s.outputs := by
  cases i with
  | addOsc arg => obtain ⟨-, rfl⟩ | ⟨-, rfl⟩ := execAddOsc_next ht <;> rfl
  | removeFreq arg => obtain rfl := execRemoveFreq_next ht; rfl
  | arm arg => obtain rfl | ⟨-, -, -, rfl⟩ := execArm_next (arg := arg) ht <;> rfl
  | stop arg => obtain ⟨-, rfl⟩ | ⟨-, rfl⟩ := execStop_next (arg := arg) ht <;> rfl
  | tick => exact execTick_keeps_outputs ht

/-- Settles O6: `step_command`, split over how `exec` ends. -/
theorem stepRunsCommand : Obligations.StepRunsCommand := by
  intro s m w rest i hin hd
  have hstep := step_command hin hd
  cases hexec : exec i (s.setInputs rest) with
  | next t =>
    have houtputs : t.outputs = s.outputs := (exec_keeps_outputs hexec).trans (setInputs_outputs s rest)
    obtain ⟨-, hinputs⟩ := exec_keeps_cfg_inputs hexec
    refine .inl ⟨t, hexec, ?_, houtputs, hinputs⟩
    rw [hstep, hexec, ← houtputs]
    rfl
  | fault r => exact absurd hexec (exec_ne_fault i _ r)
  | refused r =>
    have hi : i ≠ .tick := fun h => decode_host_ne_tick w (h ▸ hd)
    obtain ⟨harm, -, rfl⟩ := (exec_refused_iff hi).mp hexec
    exact .inr ⟨harm, hexec, by rw [hstep, hexec]; rfl⟩

/-! ### Placed words -/

theorem ofLittleEndianBytes_littleEndianBytes (n v : Nat) :
    ofLittleEndianBytes (littleEndianBytes n v) = v % 256 ^ n := by
  induction n generalizing v with
  | zero => simp [littleEndianBytes, ofLittleEndianBytes, Nat.mod_one]
  | succ n ih =>
    rw [Nat.pow_succ', Nat.mod_mul, littleEndianBytes, ofLittleEndianBytes, ih, BitVec.toNat_ofNat]

/-- A 64-bit word laid out as CMD's bytes is read back whole (R42). -/
theorem tableWord_toNat (w : CmdWord) : tableWord 64 w.toNat = w := by
  rw [tableWord, commandOfBytes, ofLittleEndianBytes_littleEndianBytes]
  have hw := w.isLt
  apply BitVec.eq_of_toNat_eq
  rw [BitVec.toNat_ofNat]
  omega

theorem decodeTableWord_encode {i : Instr} (hwf : Instr.wf .host i = true) :
    decodeTableWord 64 (encode i).toNat = some i := by
  simp [decodeTableWord, tableWord_toNat, decode_host_encode hwf]

/-- A placed command runs, and master 0 gets its response (log 2). -/
theorem step_withFetchWord_encode {i : Instr} (hwf : Instr.wf .host i = true) (s : State) :
    step (s.withFetchWord 64 (encode i).toNat) = andThen (exec i s) fun t => t.respond 0 (.okayResult t.result) := by
  have hinput : inputOfWord s.cfg 64 (encode i).toNat = .host 0 (.wr64 (s.cfg.hostAddress cmdOffset) (encode i)) := by
    rw [inputOfWord, decodeTableWord_encode hwf, tableWord_toNat]
    cases i with
    | addOsc arg | removeFreq arg | arm arg | stop arg => rfl
    | tick => cases hwf
  have hin : (s.withFetchWord 64 (encode i).toNat).inputs =
      .host 0 (.wr64 (s.cfg.hostAddress cmdOffset) (encode i)) :: s.inputs := by
    rw [State.withFetchWord, hinput, setInputs_inputs]
  exact step_command hin (decode_host_encode hwf)

theorem step_withFetchWord_commandWord {op : Byte} {arg : Word} {i : Instr} (hi : encode i = commandWord op arg)
    (hwf : Instr.wf .host i = true) (s : State) :
    step (s.withFetchWord 64 (2 ^ 32 * op.toNat + arg.toNat)) =
      andThen (exec i s) fun t => t.respond 0 (.okayResult t.result) := by
  rw [← Laws.toNat_commandWord, ← hi]
  exact step_withFetchWord_encode hwf s

/-- Settles O8: the four table words are encodings, and the TICK word is the timer's input. -/
theorem fetchedWordRuns : Obligations.FetchedWordRuns := by
  intro s arg
  have htick : (s.withFetchWord 64 0x0000008000000000).inputs = .timer :: s.inputs := rfl
  exact ⟨step_withFetchWord_commandWord (op := 0x01#8) (i := .addOsc arg) rfl rfl s,
    step_withFetchWord_commandWord (op := 0x02#8) (i := .removeFreq arg) rfl rfl s,
    step_withFetchWord_commandWord (op := 0x03#8) (i := .arm arg) rfl rfl s,
    step_withFetchWord_commandWord (op := 0x04#8) (i := .stop arg) rfl rfl s,
    step_of_input htick⟩

end Sys2Proof.Machine
end

section
/-! SUPPORT. The codec's laws (R80 to R85): the fields of a packed descriptor, a descriptor is its three fields, the
setters and their mask forms; O9, O10. -/

namespace Sys2Proof.Machine

/-! ### Fields of a packed descriptor -/

/-- `trunc_N` is the number of the integer's `N`-bit word. -/
theorem trunc_eq_toNat_ofInt (n : Nat) (v : Int) : trunc n v = (BitVec.ofInt n v).toNat :=
  (BitVec.toNat_ofInt v).symm

@[simp] theorem ampOf_encodeDescriptor (a p f : Int) : ampOf (encodeDescriptor a p f) = BitVec.ofInt 7 a := by
  have hamp := trunc_lt 7 a
  apply BitVec.eq_of_toNat_eq
  rw [toNat_ampOf, toNat_encodeDescriptor, ← trunc_eq_toNat_ofInt]
  omega

@[simp] theorem phaseOf_encodeDescriptor (a p f : Int) : phaseOf (encodeDescriptor a p f) = BitVec.ofInt 9 p := by
  have hamp := trunc_lt 7 a
  have hphase := trunc_lt 9 p
  apply BitVec.eq_of_toNat_eq
  rw [toNat_phaseOf, toNat_encodeDescriptor, ← trunc_eq_toNat_ofInt]
  omega

@[simp] theorem freqOf_encodeDescriptor (a p f : Int) : freqOf (encodeDescriptor a p f) = BitVec.ofInt 16 f := by
  have hamp := trunc_lt 7 a
  have hphase := trunc_lt 9 p
  have hfreq := trunc_lt 16 f
  apply BitVec.eq_of_toNat_eq
  rw [toNat_freqOf, toNat_encodeDescriptor, ← trunc_eq_toNat_ofInt]
  omega

/-- R85(d). -/
theorem decodeDescriptor_encodeDescriptor (a p f : Int) :
    decodeDescriptor (encodeDescriptor a p f) = (trunc 7 a, trunc 9 p, trunc 16 f) := by
  simp only [decodeDescriptor, ampOf_encodeDescriptor, phaseOf_encodeDescriptor, freqOf_encodeDescriptor,
    trunc_eq_toNat_ofInt]

/-! ### A descriptor is its three fields -/

/-- Full coverage (R85(b)): the three fields make up the word. -/
theorem encodeDescriptor_fields (w : Word) :
    encodeDescriptor (ampOf w).toNat (phaseOf w).toNat (freqOf w).toNat = w := by
  have hw := w.isLt
  apply BitVec.eq_of_toNat_eq
  rw [toNat_encodeDescriptor, trunc_ampOf, trunc_phaseOf, trunc_freqOf, toNat_ampOf, toNat_phaseOf, toNat_freqOf]
  omega

theorem word_eq_of_fields {w w' : Word} (hamp : ampOf w = ampOf w') (hphase : phaseOf w = phaseOf w')
    (hfreq : freqOf w = freqOf w') : w = w' := by
  rw [← encodeDescriptor_fields w, hamp, hphase, hfreq, encodeDescriptor_fields]

theorem ampOf_masked (w m x : Word) : ampOf (w &&& m ||| x) = ampOf w &&& ampOf m ||| ampOf x := by
  simp only [ampOf, BitVec.extractLsb'_or, BitVec.extractLsb'_and]

theorem phaseOf_masked (w m x : Word) : phaseOf (w &&& m ||| x) = phaseOf w &&& phaseOf m ||| phaseOf x := by
  simp only [phaseOf, BitVec.extractLsb'_or, BitVec.extractLsb'_and]

theorem freqOf_masked (w m x : Word) : freqOf (w &&& m ||| x) = freqOf w &&& freqOf m ||| freqOf x := by
  simp only [freqOf, BitVec.extractLsb'_or, BitVec.extractLsb'_and]

/-! ### The setters -/

/-- A field that is packed again keeps its value. -/
theorem ofInt_toNat {n : Nat} (x : BitVec n) : BitVec.ofInt n x.toNat = x := by
  rw [BitVec.ofInt_natCast, BitVec.ofNat_toNat, BitVec.setWidth_eq]

theorem ampOf_setAmplitude (w : Word) (a : Int) : ampOf (setAmplitude w a) = BitVec.ofInt 7 a :=
  ampOf_encodeDescriptor _ _ _

theorem phaseOf_setAmplitude (w : Word) (a : Int) : phaseOf (setAmplitude w a) = phaseOf w := by
  rw [setAmplitude, phaseOf_encodeDescriptor, ofInt_toNat]

theorem freqOf_setAmplitude (w : Word) (a : Int) : freqOf (setAmplitude w a) = freqOf w := by
  rw [setAmplitude, freqOf_encodeDescriptor, ofInt_toNat]

theorem phaseOf_setPhase (w : Word) (p : Int) : phaseOf (setPhase w p) = BitVec.ofInt 9 p :=
  phaseOf_encodeDescriptor _ _ _

theorem ampOf_setFrequency (w : Word) (f : Int) : ampOf (setFrequency w f) = ampOf w := by
  rw [setFrequency, ampOf_encodeDescriptor, ofInt_toNat]

theorem phaseOf_setFrequency (w : Word) (f : Int) : phaseOf (setFrequency w f) = phaseOf w := by
  rw [setFrequency, phaseOf_encodeDescriptor, ofInt_toNat]

theorem freqOf_setFrequency (w : Word) (f : Int) : freqOf (setFrequency w f) = BitVec.ofInt 16 f :=
  freqOf_encodeDescriptor _ _ _

/-- Settles O9: a packed descriptor's fields are the truncated integers, and a word is its three fields. -/
theorem codecLaws : Obligations.CodecLaws := by
  refine ⟨fun a p f ha hp hf => ?_, encodeDescriptor_fields, fun w v => ?_, decodeDescriptor_encodeDescriptor⟩
  · rw [decodeDescriptor_encodeDescriptor, trunc_of_lt ha, trunc_of_lt hp, trunc_of_lt hf]
  · exact ⟨⟨phaseOf_setAmplitude w v, freqOf_setAmplitude w v⟩, ⟨ampOf_setPhase w v, freqOf_setPhase w v⟩,
      ⟨ampOf_setFrequency w v, phaseOf_setFrequency w v⟩⟩

/-! ### The setters' mask forms

Mask and new bits are packed descriptors too: all ones in each field that stays, 0 in each field that is not set. -/

theorem trunc_zero (n : Nat) : trunc n 0 = 0 := trunc_of_lt (k := 0) (Nat.two_pow_pos n)

/-- A field under a mask of ones, with 0 put in, keeps its value. -/
theorem field_kept {n : Nat} (x : BitVec n) : x &&& BitVec.ofInt n (-1) ||| BitVec.ofInt n 0 = x := by
  simp [BitVec.ofInt_neg, BitVec.neg_one_eq_allOnes]

/-- A field under a mask of zeros takes the value put in. -/
theorem field_replaced {n : Nat} (x y : BitVec n) : x &&& BitVec.ofInt n 0 ||| y = y := by
  simp

/-- R82. -/
theorem setAmplitude_eq_mask (w : Word) (v : Int) :
    setAmplitude w v = (w &&& 0xFFFFFF80#32) ||| BitVec.ofNat 32 (trunc 7 v) := by
  have hmask : 0xFFFFFF80#32 = encodeDescriptor 0 (-1) (-1) := by decide
  have hnew : BitVec.ofNat 32 (trunc 7 v) = encodeDescriptor v 0 0 := by simp [encodeDescriptor, trunc_zero]
  rw [hmask, hnew]
  apply word_eq_of_fields
  · simp only [ampOf_setAmplitude, ampOf_masked, ampOf_encodeDescriptor, field_replaced]
  · simp only [phaseOf_setAmplitude, phaseOf_masked, phaseOf_encodeDescriptor, field_kept]
  · simp only [freqOf_setAmplitude, freqOf_masked, freqOf_encodeDescriptor, field_kept]

/-- R83. -/
theorem setPhase_eq_mask (w : Word) (v : Int) :
    setPhase w v = (w &&& 0xFFFF007F#32) ||| BitVec.ofNat 32 (2 ^ 7 * trunc 9 v) := by
  have hmask : 0xFFFF007F#32 = encodeDescriptor (-1) 0 (-1) := by decide
  have hnew : BitVec.ofNat 32 (2 ^ 7 * trunc 9 v) = encodeDescriptor 0 v 0 := by simp [encodeDescriptor, trunc_zero]
  rw [hmask, hnew]
  apply word_eq_of_fields
  · simp only [ampOf_setPhase, ampOf_masked, ampOf_encodeDescriptor, field_kept]
  · simp only [phaseOf_setPhase, phaseOf_masked, phaseOf_encodeDescriptor, field_replaced]
  · simp only [freqOf_setPhase, freqOf_masked, freqOf_encodeDescriptor, field_kept]

/-- R84. -/
theorem setFrequency_eq_mask (w : Word) (v : Int) :
    setFrequency w v = (w &&& 0x0000FFFF#32) ||| BitVec.ofNat 32 (2 ^ 16 * trunc 16 v) := by
  have hmask : 0x0000FFFF#32 = encodeDescriptor (-1) (-1) 0 := by decide
  have hnew : BitVec.ofNat 32 (2 ^ 16 * trunc 16 v) = encodeDescriptor 0 0 v := by simp [encodeDescriptor, trunc_zero]
  rw [hmask, hnew]
  apply word_eq_of_fields
  · simp only [ampOf_setFrequency, ampOf_masked, ampOf_encodeDescriptor, field_kept]
  · simp only [phaseOf_setFrequency, phaseOf_masked, phaseOf_encodeDescriptor, field_kept]
  · simp only [freqOf_setFrequency, freqOf_masked, freqOf_encodeDescriptor, field_replaced]

/-- Settles O10: the encode forms are the setters' definitions, the mask forms hold field by field. -/
theorem settersAsMasks : Obligations.SettersAsMasks := fun w v =>
  ⟨rfl, rfl, rfl, setAmplitude_eq_mask w v, setPhase_eq_mask w v, setFrequency_eq_mask w v⟩

end Sys2Proof.Machine
end

section
/-! SUPPORT. The table commands (41_table_commands.md): ADD_OSC and REMOVE_FREQ as words and as changes of the table,
and what a TICK keeps of it: O11, O12, O13 and O37. -/

namespace Sys2Proof.Machine

/-! ### Their words -/

/-- A host's word decodes to an instruction exactly when it is that instruction's word (R62, R63). -/
theorem decode_host_eq_ok_iff {w : CmdWord} {i : Instr} (hwf : Instr.wf .host i = true) :
    decode .host w = .ok i ↔ encode i = w :=
  ⟨fun h => (decodeThenEncode .host w i h).1, fun h => h ▸ decode_host_encode hwf⟩

/-- A command word is its row of the opcode map and its operand (R62, R63). -/
theorem commandWord_eq_iff_masked {op : Byte} {arg : Word} {w : CmdWord} :
    commandWord op arg = w ↔ w &&& 0xFFFFFFFF00000000#64 = commandWord op 0#32 ∧ argField w = arg := by
  rw [commandWord_eq_iff, and_commandMask_eq_iff, and_assoc]

/-! ### ADD_OSC -/

theorem execAddOsc_full {s : State} (arg : Word) (hfull : s.table.length = s.cfg.tableCapacity) :
    execAddOsc arg s = .next (s.setResult .outOfMemory) :=
  if_pos hfull

theorem execAddOsc_room {s : State} (arg : Word) (hroom : s.table.length ≠ s.cfg.tableCapacity) :
    execAddOsc arg s = .next ((s.setTable (s.table ++ [arg])).setResult .ok) :=
  if_neg hroom

/-- Settles O11: the word is ADD_OSC's encoding; the two results are the two branches on a full table. -/
theorem addOscAppendsOrReportsFull : Obligations.AddOscAppendsOrReportsFull := fun arg _ =>
  ⟨fun _ => (decode_host_eq_ok_iff (i := .addOsc arg) rfl).trans commandWord_eq_iff_masked, execAddOsc_full arg,
    execAddOsc_room arg⟩

/-! ### REMOVE_FREQ -/

theorem exec_removeFreq (arg : Word) (s : State) :
    exec (.removeFreq arg) s = .next ((s.setTable (survivors (keyOperand arg) s.table)).setResult .ok) := rfl

theorem survivors_eq_filter_ne (key : BitVec 16) (t : List Word) :
    survivors key t = t.filter fun e => freqOf e ≠ key :=
  List.filter_congr fun e _ => by rw [decide_not, bne, beq_eq_decide]

theorem survivors_idem (key : BitVec 16) (t : List Word) : survivors key (survivors key t) = survivors key t := by
  simp only [survivors, List.filter_filter, Bool.and_self]

theorem count_survivors (key : BitVec 16) (t : List Word) (e : Word) :
    (survivors key t).count e = if freqOf e = key then 0 else t.count e := by
  split
  case isTrue hkey => exact List.count_eq_zero_of_not_mem (by simp [survivors, hkey])
  case isFalse hkey => exact List.count_filter (by simpa using hkey)

/-- Settles O12: the word is REMOVE_FREQ's encoding; the table left is that of `survivors`. -/
theorem removeFreqKeepsSurvivors : Obligations.RemoveFreqKeepsSurvivors := by
  intro arg s
  refine ⟨fun w => (decode_host_eq_ok_iff (i := .removeFreq arg) rfl).trans commandWord_eq_iff_masked, ?_⟩
  rw [exec_removeFreq, survivors_eq_filter_ne]
  rfl

/-- Settles O13: the two operands have one key, and `survivors` of a key is idempotent and counts as the claim says. -/
theorem removeFreqIdempotent : Obligations.RemoveFreqIdempotent := by
  intro arg arg' s t hkey ht
  have hsame : keyOperand arg' = keyOperand arg := hkey.symm
  obtain rfl := execRemoveFreq_next ht
  refine ⟨?_, count_survivors (keyOperand arg) s.table⟩
  rw [exec_removeFreq, hsame, setResult_table, setTable_table, survivors_idem]
  rfl

/-! ### TICK -/

/-- Settles O37: the write-back of each frame sets the phase field only (R105). -/
theorem tickKeepsAmplitudeAndFrequency : Obligations.TickKeepsAmplitudeAndFrequency :=
  fun _ _ => execTick_map_ampFreqOf

end Sys2Proof.Machine
end

section
/-! SUPPORT. The mixer (42_mixer.md): what one write-back and many make of an entry's phase, what a frame's value is and
which bytes it is written as, and that amplitudes enter none of it; O15 to O22. -/

namespace Sys2Proof.Machine

/-! ### The write-back of one entry -/

theorem toNat_phaseOf_setPhase (w : Word) {p : Nat} (hp : p < 512) : (phaseOf (setPhase w (p : Int))).toNat = p := by
  rw [phaseOf_setPhase, ← trunc_eq_toNat_ofInt, trunc_of_lt hp]

theorem toNat_phaseOf_advancePhase (r : Nat) (e : Word) :
    (phaseOf (advancePhase r e)).toNat = ((phaseOf e).toNat + phaseStep e r) % 360 := by
  have hwrap : ((phaseOf e).toNat + phaseStep e r) % 360 < 360 := Nat.mod_lt _ (by decide)
  exact toNat_phaseOf_setPhase e (Nat.lt_trans hwrap (by decide))

theorem phaseOf_advancePhase_lt (r : Nat) (e : Word) : (phaseOf (advancePhase r e)).toNat < 360 := by
  rw [toNat_phaseOf_advancePhase]
  exact Nat.mod_lt _ (by decide)

/-- Settles O15: a phase below 360 fits the phase field, and the write-back sets no other field. -/
theorem phaseWriteBack : Obligations.PhaseWriteBack := fun r e =>
  ⟨toNat_phaseOf_advancePhase r e, phaseOf_advancePhase_lt r e, ampOf_setPhase e _, freqOf_setPhase e _⟩

/-! ### Many write-backs of one entry -/

theorem ampFreqOf_iterate_advancePhase (r n : Nat) (e : Word) :
    ampFreqOf ((advancePhase r)^[n] e) = ampFreqOf e := by
  have hinvariant : ampFreqOf ∘ advancePhase r = ampFreqOf := funext (ampFreqOf_advancePhase r)
  exact congrFun (Function.iterate_invariant hinvariant n) e

/-- The step depends on the frequency alone, so it is the same at every frame. -/
theorem phaseStep_iterate_advancePhase (r n : Nat) (e : Word) :
    phaseStep ((advancePhase r)^[n] e) r = phaseStep e r := by
  have hfreq : freqOf ((advancePhase r)^[n] e) = freqOf e := congrArg Prod.snd (ampFreqOf_iterate_advancePhase r n e)
  rw [phaseStep, hfreq, phaseStep]

/-- The phase after `n` frames, up to whole cycles; a first phase of 360 or more is not reduced before the first frame. -/
theorem phaseOf_iterate_modEq (r n : Nat) (e : Word) :
    (phaseOf ((advancePhase r)^[n] e)).toNat ≡ (phaseOf e).toNat + n * phaseStep e r [MOD 360] := by
  induction n with
  | zero => rw [Nat.zero_mul]; rfl
  | succ n ih =>
    rw [Function.iterate_succ_apply', toNat_phaseOf_advancePhase, phaseStep_iterate_advancePhase, Nat.succ_mul,
      ← Nat.add_assoc]
    exact (Nat.mod_modEq _ _).trans (ih.add_right _)

/-- R108(b). -/
theorem toNat_phaseOf_iterate_succ (r n : Nat) (e : Word) :
    (phaseOf ((advancePhase r)^[n + 1] e)).toNat = ((phaseOf e).toNat + (n + 1) * phaseStep e r) % 360 := by
  have hlt : (phaseOf ((advancePhase r)^[n + 1] e)).toNat < 360 := by
    rw [Function.iterate_succ_apply']
    exact phaseOf_advancePhase_lt r _
  exact (Nat.mod_eq_of_lt hlt).symm.trans (phaseOf_iterate_modEq r (n + 1) e)

theorem iterate_advancePhase_succ (r n : Nat) (e : Word) : (advancePhase r)^[n + 1] e = entryAfter r (n + 1) e := by
  obtain ⟨hamp, hfreq⟩ := Prod.ext_iff.mp (ampFreqOf_iterate_advancePhase r (n + 1) e)
  have hwrap : ((phaseOf e).toNat + (n + 1) * phaseStep e r) % 360 < 360 := Nat.mod_lt _ (by decide)
  apply word_eq_of_fields
  · exact hamp.trans (ampOf_setPhase e _).symm
  · apply BitVec.eq_of_toNat_eq
    exact (toNat_phaseOf_iterate_succ r n e).trans (toNat_phaseOf_setPhase e (Nat.lt_trans hwrap (by decide))).symm
  · exact hfreq.trans (freqOf_setPhase e _).symm

/-- Settles O18: MIX advances every entry once a frame (`mix_table`), and `n ≥ 1` advances are `entryAfter`. -/
theorem mixPhaseAfterFrames : Obligations.MixPhaseAfterFrames := by
  intro a r n s
  refine ⟨rfl, fun hn => ?_⟩
  obtain ⟨n, rfl⟩ := Nat.exists_eq_succ_of_ne_zero (Nat.one_le_iff_ne_zero.mp hn)
  rw [mix_table, funext (iterate_advancePhase_succ r n)]

/-- `d` steps of `st` are whole cycles of `m` exactly when `m / gcd(m, st)` divides `d`: that is the order of `st` among
the residues. -/
theorem dvd_mul_iff_div_gcd_dvd {m : Nat} (hm : m ≠ 0) (d st : Nat) : m ∣ d * st ↔ m / m.gcd st ∣ d := by
  rw [← ZMod.addOrderOf_coe st hm, addOrderOf_dvd_iff_nsmul_eq_zero, nsmul_eq_mul, ← Nat.cast_mul,
    ZMod.natCast_eq_zero_iff]

/-- Settles O21: after a first write-back two phases are equal exactly when the steps between them are whole cycles. -/
theorem tonePeriod : Obligations.TonePeriod := by
  intro e r k d
  have hsteps : (phaseOf e).toNat + (k + d + 1) * phaseStep e r =
      (phaseOf e).toNat + (k + 1) * phaseStep e r + d * phaseStep e r := by ring
  calc phaseOf ((advancePhase r)^[k + 1 + d] e) = phaseOf ((advancePhase r)^[k + 1] e)
      ↔ (phaseOf e).toNat + (k + 1) * phaseStep e r + d * phaseStep e r ≡
          (phaseOf e).toNat + (k + 1) * phaseStep e r [MOD 360] := by
        rw [← BitVec.toNat_inj, Nat.add_right_comm, toNat_phaseOf_iterate_succ, toNat_phaseOf_iterate_succ, hsteps]
        rfl
    _ ↔ 360 ∣ d * phaseStep e r := Nat.add_modEq_left_iff
    _ ↔ 360 / Nat.gcd 360 (phaseStep e r) ∣ d := dvd_mul_iff_div_gcd_dvd (by decide) d _

/-! ### The value of a frame -/

theorem sumContrib_eq_sum (c : Config) (t : List Word) : sumContrib c t = (t.map (contrib c)).sum := by
  induction t with
  | nil => rfl
  | cons e t ih => rw [sumContrib, ih, List.map_cons, List.sum_cons]

/-- A contribution is a 16-bit sample (R102). -/
theorem contrib_range (c : Config) (e : Word) : -32768 ≤ contrib c e ∧ contrib c e ≤ 32767 :=
  ⟨BitVec.le_toInt _, Int.le_of_lt_add_one BitVec.toInt_lt⟩

/-- The range of a sum of samples grows with their number. -/
theorem sumContrib_range (c : Config) (t : List Word) :
    -32768 * t.length ≤ sumContrib c t ∧ sumContrib c t ≤ 32767 * t.length := by
  induction t with
  | nil => exact ⟨le_refl 0, le_refl 0⟩
  | cons e t ih =>
    have he := contrib_range c e
    simp only [sumContrib, List.length_cons]
    omega

/-- Settles O16: at most 65536 samples are summed (R1), and a sum of a list does not depend on its order. -/
theorem accumulatorNeverOverflows : Obligations.AccumulatorNeverOverflows := by
  intro c t hwf hfits
  have hcapacity : c.tableCapacity ≤ 65536 := by
    simp only [Config.wf, Bool.and_eq_true, decide_eq_true_eq] at hwf
    omega
  obtain ⟨hlo, hhi⟩ := sumContrib_range c t
  refine ⟨sumContrib_eq_sum c t, by omega, by omega, fun t' hperm => ?_⟩
  rw [sumContrib_eq_sum, sumContrib_eq_sum, (hperm.map (contrib c)).sum_eq]

theorem frameValue_nil (c : Config) : frameValue c [] = 0 := rfl

theorem frameValue_of_ne_nil (c : Config) {t : List Word} (h : t ≠ []) :
    frameValue c t = Int.tdiv (sumContrib c t) t.length :=
  if_neg (mt List.length_eq_zero_iff.mp h)

/-- A quotient toward zero keeps the bounds of a mean. -/
theorem tdiv_range {lo hi S n : Int} (hn : 0 < n) (hlo : lo * n ≤ S) (hhi : S ≤ hi * n) :
    lo ≤ Int.tdiv S n ∧ Int.tdiv S n ≤ hi := by
  constructor
  · calc lo = Int.tdiv (lo * n) n := (Int.mul_tdiv_cancel lo hn.ne').symm
      _ ≤ Int.tdiv S n := Int.tdiv_le_tdiv hn hlo
  · calc Int.tdiv S n ≤ Int.tdiv (hi * n) n := Int.tdiv_le_tdiv hn hhi
      _ = hi := Int.mul_tdiv_cancel hi hn.ne'

theorem frameValue_range (c : Config) (t : List Word) : -32768 ≤ frameValue c t ∧ frameValue c t ≤ 32767 := by
  by_cases h : t = []
  · rw [h, frameValue_nil]
    decide
  · obtain ⟨hlo, hhi⟩ := sumContrib_range c t
    rw [frameValue_of_ne_nil c h]
    exact tdiv_range (by exact_mod_cast List.length_pos_iff.mpr h) hlo hhi

/-- Settles O17: the sum of `n` samples lies in `n` times their range, so its quotient by `n` lies in their range. -/
theorem meanIsASample : Obligations.MeanIsASample := by
  intro c t
  obtain ⟨hlo, hhi⟩ := frameValue_range c t
  have hsurvives : (BitVec.ofInt 16 (frameValue c t)).toInt = frameValue c t :=
    BitVec.toInt_ofInt_eq_self (by decide) hlo (Int.lt_add_one_of_le hhi)
  exact ⟨fun h => h ▸ frameValue_nil c, frameValue_of_ne_nil c, hlo, hhi, hsurvives⟩

/-! ### What MIX writes -/

/-- Phases that differ by whole cycles have one sine (R102). -/
theorem sineAt_congr (c : Config) {p q : Nat} (h : p ≡ q [MOD 360]) : sineAt c p = sineAt c q := by
  simp only [sineAt, show p % 360 = q % 360 from h]

/-- R108(d): the value of frame `k` is formed from the phases after `k` advances. -/
theorem frameValue_iterate (c : Config) (t : List Word) (r k : Nat) :
    frameValue c (t.map ((advancePhase r)^[k])) = toneSample c t r k := by
  have hcontrib : ∀ e : Word, contrib c ((advancePhase r)^[k] e) = sineAt c ((phaseOf e).toNat + k * phaseStep e r) :=
    fun e => sineAt_congr c (phaseOf_iterate_modEq r k e)
  rw [frameValue, List.length_map, sumContrib_eq_sum, List.map_map, Function.comp_def, funext hcontrib]
  rfl

/-- The bytes of a number are the ones it was made of (R42). -/
theorem littleEndianBytes_ofLittleEndianBytes (bs : List Byte) :
    littleEndianBytes bs.length (ofLittleEndianBytes bs) = bs := by
  induction bs with
  | nil => rfl
  | cons b bs ih =>
    have hb := b.isLt
    have hbyte : BitVec.ofNat 8 (ofLittleEndianBytes (b :: bs)) = b := by
      apply BitVec.eq_of_toNat_eq
      rw [BitVec.toNat_ofNat, ofLittleEndianBytes]
      omega
    have hrest : ofLittleEndianBytes (b :: bs) / 256 = ofLittleEndianBytes bs := by
      rw [ofLittleEndianBytes]
      omega
    rw [List.length_cons, littleEndianBytes, hbyte, hrest, ih]

theorem toNat_frameWord (v : Int) : (frameWord v).toNat = trunc 16 v + 2 ^ 16 * trunc 16 v := by
  have hv := trunc_lt 16 v
  rw [frameWord, BitVec.toNat_ofNat, Nat.mod_eq_of_lt]
  omega

/-- R106: both channels carry the value, each low byte first. -/
theorem ofLittleEndianBytes_frameBytesOf (v : Int) : ofLittleEndianBytes (frameBytesOf v) = (frameWord v).toNat := by
  have hv := trunc_lt 16 v
  have hlow : ((BitVec.ofInt 16 v).extractLsb' 0 8).toNat = trunc 16 v % 256 := by
    rw [BitVec.extractLsb'_toNat, trunc_eq_toNat_ofInt, Nat.shiftRight_zero]
  have hhigh : ((BitVec.ofInt 16 v).extractLsb' 8 8).toNat = trunc 16 v / 256 % 256 := by
    rw [BitVec.extractLsb'_toNat, trunc_eq_toNat_ofInt, Nat.shiftRight_eq_div_pow]
  simp only [frameBytesOf, ofLittleEndianBytes, hlow, hhigh, toNat_frameWord]
  omega

theorem littleEndianBytes_frameWord (v : Int) : littleEndianBytes 4 (frameWord v).toNat = frameBytesOf v := by
  rw [← ofLittleEndianBytes_frameBytesOf]
  exact littleEndianBytes_ofLittleEndianBytes (frameBytesOf v)

/-- MIX changes the table, sample memory and the event history, and no other field. -/
theorem mix_keeps_rest (a r n : Nat) (s : State) :
    { mix a r n s with table := s.table, mem := s.mem, history := s.history } = s := by
  simp only [mix_cfg, mix_regs, mix_lat, mix_sched, mix_cursor, mix_periodCount, mix_result, mix_inputs, mix_outputs]

/-- Settles O19: byte `j` of frame `k` is read by `read_mix`, its word is that of the frame's value, laid out low byte
first. -/
theorem mixWritesEveryFrame : Obligations.MixWritesEveryFrame := by
  intro a r n s
  refine ⟨fun k j hk hj => ?_, fun x hx => ?_, mix_keeps_rest a r n s⟩
  · rw [read_mix, if_pos (by omega), show (a + 4 * k + j - a) / 4 = k by omega,
      show (a + 4 * k + j - a) % 4 = j by omega, frameWordAt, littleEndianBytes_frameWord, frameValue_iterate]
  · rw [read_mix, if_neg hx]

/-- Settles O20: a MIX is its first frame and then a MIX of the rest, four bytes further. -/
theorem mixPhaseContinuity : Obligations.MixPhaseContinuity := by
  intro a r n m s
  induction n generalizing a s with
  | zero => rw [Nat.zero_add]; rfl
  | succ n ih =>
    have hrest := ih (a + frameBytes) (mixFrame a r s)
    rw [Nat.succ_add, mix, mix, ← hrest, frameBytes, show a + 4 * (n + 1) = a + 4 + 4 * n by omega]

/-! ### Amplitudes are never heard -/

/-- The table with every amplitude 0: what the mixer hears of it. -/
def silenced (t : List Word) : List Word := t.map fun e => setAmplitude e 0

theorem length_silenced (t : List Word) : (silenced t).length = t.length := List.length_map _

theorem contrib_setAmplitude (c : Config) (e : Word) (a : Int) : contrib c (setAmplitude e a) = contrib c e := by
  rw [contrib, phaseOf_setAmplitude, contrib]

theorem frameValue_silenced (c : Config) (t : List Word) : frameValue c (silenced t) = frameValue c t := by
  have hsum : sumContrib c (silenced t) = sumContrib c t := by
    rw [sumContrib_eq_sum, sumContrib_eq_sum, silenced, List.map_map]
    exact congrArg List.sum (List.map_congr_left fun e _ => contrib_setAmplitude c e 0)
  rw [frameValue, hsum, length_silenced, frameValue]

/-- The write-back leaves the amplitude alone and does not read it (R101, R105). -/
theorem setAmplitude_advancePhase (r : Nat) (e : Word) (a : Int) :
    setAmplitude (advancePhase r e) a = advancePhase r (setAmplitude e a) := by
  have hphase := toNat_phaseOf_advancePhase r
  apply word_eq_of_fields
  · rw [ampOf_setAmplitude, advancePhase, ampOf_setPhase, ampOf_setAmplitude]
  · apply BitVec.eq_of_toNat_eq
    simp only [phaseOf_setAmplitude, hphase, phaseStep, freqOf_setAmplitude]
  · simp only [advancePhase, freqOf_setAmplitude, freqOf_setPhase]

theorem silenced_map_advancePhase (r : Nat) (t : List Word) :
    silenced (t.map (advancePhase r)) = (silenced t).map (advancePhase r) := by
  simp only [silenced, List.map_map]
  exact List.map_congr_left fun e _ => setAmplitude_advancePhase r e 0

/-- MIX over a table that differs in amplitudes only: the same bytes and history, and again a difference in amplitudes
only. -/
theorem mix_setTable {a r n : Nat} {s : State} {t : List Word} (h : silenced t = silenced s.table) :
    ∃ t', mix a r n (s.setTable t) = (mix a r n s).setTable t' ∧ silenced t' = silenced (mix a r n s).table := by
  induction n generalizing a s t with
  | zero => exact ⟨t, rfl, h⟩
  | succ n ih =>
    have hvalue : frameValue s.cfg t = frameValue s.cfg s.table := by
      rw [← frameValue_silenced, h, frameValue_silenced]
    have hframe : mixFrame a r (s.setTable t) = (mixFrame a r s).setTable (t.map (advancePhase r)) := by
      simp only [mixFrame, setTable_table, setTable_cfg, hvalue]
      rfl
    have hsilenced : silenced (t.map (advancePhase r)) = silenced (mixFrame a r s).table := by
      rw [silenced_map_advancePhase, h, ← silenced_map_advancePhase]
      rfl
    rw [mix, mix, hframe]
    exact ih hsilenced

/-- A TICK's checks do not read the table (R125), and its fill hears no amplitude. -/
theorem execTick_setTable {s t : State} {table : List Word} (h : silenced table = silenced s.table)
    (ht : execTick s = .next t) :
    ∃ table', execTick (s.setTable table) = .next (t.setTable table') ∧ silenced table' = silenced t.table := by
  obtain ⟨hnot, rfl⟩ | ⟨harmed, hbacked, ⟨hcursor, rfl⟩ | ⟨hcursor, hfits, rfl⟩ | ⟨hcursor, hfits, hrate, rfl⟩⟩ :=
    execTick_next ht
  · exact ⟨table, execTick_of_not_armed (s := t.setTable table) hnot, h⟩
  · exact ⟨table, execTick_of_outside (s := s.setTable table) harmed hbacked hcursor, h⟩
  · exact ⟨table, execTick_of_not_fits (s := s.setTable table) harmed hbacked hcursor hfits, h⟩
  · obtain ⟨table', hmix, hsilenced⟩ := mix_setTable (a := mixAddress s) (r := s.lat.rate.toNat)
      (n := s.lat.period.toNat) h
    refine ⟨table', ?_, hsilenced⟩
    have hfill : fillPeriod (s.setTable table) =
        .next ((mix (mixAddress s) s.lat.rate.toNat s.lat.period.toNat s).setTable table') :=
      (fillPeriod_of_rate (s := s.setTable table) hrate).trans (congrArg _ hmix)
    rw [execTick_of_fits (s := s.setTable table) harmed hbacked hcursor hfits, hfill]
    rfl

/-- Settles O22: the other state is `s.setTable table'`, and its TICK is that of `execTick_setTable`. -/
theorem amplitudeNeverHeard : Obligations.AmplitudeNeverHeard := by
  intro s t table' h ht
  obtain ⟨table'', htick, hsilenced⟩ := execTick_setTable h ht
  exact ⟨t.setTable table'', htick, hsilenced, rfl⟩

end Sys2Proof.Machine
end

section
/-! SUPPORT. What a TICK (R125, R126) comes to in each scheduler state and at each cursor, and where a step runs one:
O7, O25, O27 and O28. -/

namespace Sys2Proof.Machine

/-! ### Where a tick runs, and where it does nothing -/

/-- Settles O7: a step runs its first input, or `execTick` when there is none, which does nothing unless ARMED. -/
theorem stepRunsTick : Obligations.StepRunsTick :=
  ⟨fun _ _ hin => step_of_input hin, fun _ hin _ => step_of_no_input hin,
    fun _ hin hnot => (step_of_no_input hin).trans (execTick_of_not_armed hnot)⟩

/-- Settles O25: the first check of a TICK (R125). -/
theorem tickOutsideArmedDoesNothing : Obligations.TickOutsideArmedDoesNothing :=
  fun _ hnot => execTick_of_not_armed hnot

/-! ### A skipped period -/

theorem periodFits_eq_false_iff (s : State) :
    periodFits s = false ↔ s.lat.bytes.toNat - s.cursor.toNat < 4 * s.lat.period.toNat := by
  rw [← Bool.not_eq_true, periodFits_iff, Nat.not_le]

/-- Where less than a period is left the cursor goes back to the start of the region (R126). -/
theorem nextCursor_of_not_fits {s : State} (hskip : periodFits s = false) : nextCursor s = 0 := by
  rw [periodFits_eq_false_iff] at hskip
  refine if_pos ?_
  rw [periodBytes_eq]
  omega

/-- Settles O27: a skipped TICK is `advanceAndNotify` alone, and its cursor is 0. -/
theorem skippedTickAdvances : Obligations.SkippedTickAdvances := by
  intro s harmed hbacked hcursor hshort
  have hskip : periodFits s = false := (periodFits_eq_false_iff s).mpr hshort
  have htick := execTick_of_not_fits harmed hbacked ((cursorInRegion_iff s).mpr hcursor) hskip
  rw [advanceAndNotify, nextCursor_of_not_fits hskip] at htick
  exact htick

/-! ### A filled period -/

theorem StreamParams.Launchable.rate_ne_zero {c : Config} {p : StreamParams} (h : p.Launchable c) : p.rate ≠ 0 := by
  have hpos := h.rate_pos
  intro hzero
  simp [hzero] at hpos

/-- A TICK that finds a period left, with parameters that passed ARM, is MIX over it and then the end of every tick. -/
theorem execTick_fill {s : State} (harmed : s.sched = .armed) (hlaunchable : s.lat.Launchable s.cfg)
    (hbacked : s.RegionBacked) (hcursor : cursorInRegion s = true) (hfits : periodFits s = true) :
    execTick s = .next (advanceAndNotify (mix (mixAddress s) s.lat.rate.toNat s.lat.period.toNat s)) := by
  rw [execTick_of_fits harmed hbacked hcursor hfits, fillPeriod_of_rate hlaunchable.rate_ne_zero]
  rfl

/-- R106's word of a frame: its 16 bits in both halves. -/
theorem frameWord_eq (v : Int) : frameWord v = BitVec.ofNat 32 (65537 * (BitVec.ofInt 16 v).toNat) := by
  rw [frameWord, trunc_eq_toNat_ofInt]
  congr 1
  omega

theorem frameWordAt_eq (c : Config) (t : List Word) (r k : Nat) :
    frameWordAt c t r k = BitVec.ofNat 32 (65537 * (BitVec.ofInt 16 (toneSample c t r k)).toNat) := by
  rw [frameWordAt, frameValue_iterate, frameWord_eq]

/-- Settles O28: the fields that MIX writes are those of O18, O19 and `mix_history`; `advanceAndNotify` writes the
cursor, the count and one event. -/
theorem fillingTickWritesPeriod : Obligations.FillingTickWritesPeriod := by
  intro s harmed hlaunchable hbacked hcursor hfits
  have htick := execTick_fill harmed hlaunchable hbacked ((cursorInRegion_iff s).mpr hcursor)
    ((periodFits_iff s).mpr hfits)
  obtain ⟨hframes, hothers, -⟩ := mixWritesEveryFrame (mixAddress s) s.lat.rate.toNat s.lat.period.toNat s
  obtain ⟨-, hphases⟩ := mixPhaseAfterFrames (mixAddress s) s.lat.rate.toNat s.lat.period.toNat s
  refine ⟨_, htick, hframes, hothers, hphases hlaunchable.period_pos, ?history, ?cursor, ?_⟩
  case history => simp only [advanceAndNotify_history, mix_history, frameWordAt_eq, mixAddress]
  case cursor => rw [advanceAndNotify_cursor, nextCursor_mix, toNat_nextCursor]
  simp

end Sys2Proof.Machine
end

section
/-! SUPPORT. Any number of ticks of one stream (R127): what each of them passes on, the cursor's cycle and the fills in
it: O31, O32, O33 and O53. -/

namespace Sys2Proof.Machine

/-! ### The events of a tick -/

@[simp] theorem notifications_append (l l' : List HistoryEvent) :
    notifications (l ++ l') = notifications l + notifications l' := List.count_append

@[simp] theorem frameWrites_append (l l' : List HistoryEvent) :
    frameWrites (l ++ l') = frameWrites l + frameWrites l' := List.countP_append

@[simp] theorem notifications_periodElapsed : notifications [.periodElapsed] = 1 := rfl

@[simp] theorem frameWrites_periodElapsed : frameWrites [.periodElapsed] = 0 := rfl

/-- MIX notifies nothing. -/
theorem notifications_mix (a r n : Nat) (s : State) :
    notifications (mix a r n s).history = notifications s.history := by
  rw [mix_history, notifications_append, Nat.add_eq_left]
  exact List.count_eq_zero_of_not_mem (by simp)

/-- MIX writes one frame at a time. -/
theorem frameWrites_mix (a r n : Nat) (s : State) :
    frameWrites (mix a r n s).history = frameWrites s.history + n := by
  rw [mix_history, frameWrites_append, Nat.add_left_cancel_iff]
  simp [frameWrites, Function.comp_def]

/-! ### One tick of a stream -/

/-- The block streams: ARMED with parameters that passed ARM, over a backed region, the cursor inside it. -/
structure State.Streaming (s : State) : Prop where
  armed : s.sched = .armed
  launchable : s.lat.Launchable s.cfg
  region_backed : s.RegionBacked
  cursor_inside : s.cursor.toNat < s.lat.bytes.toNat

/-- `t` is the stream of `s` one period on (R125, R126). -/
structure State.PeriodPassed (s t : State) : Prop where
  cursor : t.cursor = nextCursor s
  periodCount : t.periodCount = s.periodCount + 1
  notified : notifications t.history = notifications s.history + 1
  written : frameWrites t.history = frameWrites s.history + if periodFits s = true then s.lat.period.toNat else 0
  sched : t.sched = s.sched
  lat : t.lat = s.lat
  cfg : t.cfg = s.cfg

/-- Every tick of a stream passes one period, filled or skipped. -/
theorem State.Streaming.tick {s : State} (h : s.Streaming) : ∃ t, execTick s = .next t ∧ s.PeriodPassed t := by
  have hcursor : cursorInRegion s = true := (cursorInRegion_iff s).mpr h.cursor_inside
  cases hfits : periodFits s with
  | false =>
    refine ⟨_, execTick_of_not_fits h.armed h.region_backed hcursor hfits, ?_⟩
    constructor <;> simp [hfits]
  | true =>
    refine ⟨_, execTick_fill h.armed h.launchable h.region_backed hcursor hfits, ?_⟩
    constructor <;> simp [hfits, notifications_mix, frameWrites_mix]

/-- A stream goes on after its tick: the cursor stays inside its region (R126). -/
theorem State.Streaming.after_tick {s t : State} (h : s.Streaming) (ht : s.PeriodPassed t) : t.Streaming where
  armed := ht.sched.trans h.armed
  launchable := by rw [ht.lat, ht.cfg]; exact h.launchable
  region_backed := by rw [State.RegionBacked, ht.lat, ht.cfg]; exact h.region_backed
  cursor_inside := by
    have hinside := h.cursor_inside
    rw [ht.cursor, ht.lat, toNat_nextCursor]
    split <;> omega

/-! ### Runs of ticks -/

theorem runTicks_succ_of_tick {k : Nat} {s u : State} (h : exec .tick s = .next u) :
    runTicks (k + 1) s = runTicks k u := by
  simp only [runTicks, h]

/-- The last tick of a run, after the others. -/
theorem runTicks_succ_of_run {k : Nat} {s t : State} (h : runTicks k s = .next t) :
    runTicks (k + 1) s = exec .tick t := by
  induction k generalizing s with
  | zero =>
    obtain rfl : s = t := Host.Outcome.next.inj h
    cases hu : exec .tick s <;> simp only [runTicks, hu]
  | succ k ih =>
    cases hu : exec .tick s with
    | next u =>
      rw [runTicks_succ_of_tick hu] at h ⊢
      exact ih h
    | fault r => simp [runTicks, hu] at h
    | refused r => simp [runTicks, hu] at h

/-- Settles O32: each of these ticks is skipped (O27), and the cursor was 0 before. -/
theorem oversizedPeriodNeverFills : Obligations.OversizedPeriodNeverFills := by
  intro s k harmed hbacked hzero hregion hoversized
  induction k generalizing s with
  | zero => simp [runTicks]
  | succ k ih =>
    have htick := skippedTickAdvances s harmed hbacked (by simpa [hzero] using hregion)
      (by simpa [hzero] using hoversized)
    have hrest := ih { s with cursor := 0, periodCount := s.periodCount + 1, history := s.history ++ [.periodElapsed] }
      harmed hbacked rfl hregion hoversized
    have hcount : s.periodCount + 1 + BitVec.ofNat 32 k = s.periodCount + BitVec.ofNat 32 (k + 1) := by
      rw [BitVec.add_assoc, BitVec.add_comm 1, BitVec.ofNat_add]
      rfl
    rw [runTicks_succ_of_tick htick, hrest]
    simp only [hcount, hzero, List.replicate_succ, List.append_assoc, List.singleton_append]

/-! ### The cursor's cycle

With `P` the bytes of a period and `B` those of the region, the cursor of tick `i` of a cycle is `P * i`, for the `i`
below `(B - 1) / P + 1`. -/

theorem cycle_cursor_inside {P B i : Nat} (hP : 0 < P) (hB : 0 < B) (hi : i < (B - 1) / P + 1) : P * i < B := by
  have hle : i * P ≤ B - 1 := (Nat.le_div_iff_mul_le hP).mp (Nat.le_of_lt_succ hi)
  rw [Nat.mul_comm]
  omega

/-- The period of tick `i` reaches the region's end exactly at the last tick of the cycle. -/
theorem cycle_end_iff {P B i : Nat} (hP : 0 < P) (hB : 0 < B) (hi : i < (B - 1) / P + 1) :
    B ≤ P * i + P ↔ i + 1 = (B - 1) / P + 1 := by
  have hlast : (B - 1) / P < i + 1 ↔ B - 1 < (i + 1) * P := Nat.div_lt_iff_lt_mul hP
  rw [Nat.succ_mul, Nat.mul_comm i] at hlast
  omega

/-- Tick `i` has its whole period left exactly for the `i` below `B / P`. -/
theorem cycle_fits_iff {P B i : Nat} (hP : 0 < P) : P ≤ B - P * i ↔ i < B / P := by
  have hwhole : i + 1 ≤ B / P ↔ (i + 1) * P ≤ B := Nat.le_div_iff_mul_le hP
  rw [Nat.succ_mul, Nat.mul_comm i] at hwhole
  omega

theorem div_le_cycle {P B : Nat} (hP : 0 < P) (hB : 0 < B) : B / P ≤ (B - 1) / P + 1 := by
  refine Nat.div_le_of_le_mul ?_
  rw [Nat.mul_succ]
  exact (cycle_end_iff hP hB (Nat.lt_succ_self _)).mpr rfl

theorem succ_mod_eq_ite {n : Nat} (hn : 0 < n) (k : Nat) :
    (k + 1) % n = if k % n + 1 = n then 0 else k % n + 1 := by
  have hlt := Nat.mod_lt k hn
  rw [← Nat.mod_add_mod]
  split
  case isTrue hlast => rw [hlast, Nat.mod_self]
  case isFalse hmore => exact Nat.mod_eq_of_lt (by omega)

/-- R127(b)'s `P`: the bytes of a period. -/
def State.periodSize (s : State) : Nat := 4 * s.lat.period.toNat

/-- R127(b)'s `m + 1`: the ticks of one cycle of the cursor. -/
def State.cycleTicks (s : State) : Nat := (s.lat.bytes.toNat - 1) / s.periodSize + 1

/-- R127(c)'s `B div P`: the fills of one cycle. -/
def State.cycleFills (s : State) : Nat := s.lat.bytes.toNat / s.periodSize

/-- `t` is the stream of `s`, whose cursor was 0, `k` ticks on. -/
structure State.TicksPassed (k : Nat) (s t : State) : Prop where
  cursor : t.cursor.toNat = s.periodSize * (k % s.cycleTicks)
  periodCount : t.periodCount = s.periodCount + BitVec.ofNat 32 k
  notified : notifications t.history = notifications s.history + k
  written : k ≤ s.cycleTicks →
    frameWrites t.history = frameWrites s.history + s.lat.period.toNat * min k s.cycleFills
  sched : t.sched = s.sched
  lat : t.lat = s.lat
  cfg : t.cfg = s.cfg

theorem State.TicksPassed.zero {s : State} (hzero : s.cursor = 0) : State.TicksPassed 0 s s := by
  constructor <;> simp [hzero]

/-- One tick more, at tick `k % s.cycleTicks` of the cycle. -/
theorem State.TicksPassed.succ {k : Nat} {s t u : State} (hstream : s.Streaming) (h : State.TicksPassed k s t)
    (hu : t.PeriodPassed u) : State.TicksPassed (k + 1) s u := by
  have hP : 0 < s.periodSize := Nat.mul_pos (by decide) hstream.launchable.period_pos
  have hB : 0 < s.lat.bytes.toNat := Nat.zero_lt_of_lt hstream.cursor_inside
  have hn : 0 < s.cycleTicks := Nat.succ_pos _
  have hsize : 4 * t.lat.period.toNat = s.periodSize := by rw [h.lat]; rfl
  refine ⟨?cursor, ?periodCount, ?notified, ?written, hu.sched.trans h.sched, hu.lat.trans h.lat, hu.cfg.trans h.cfg⟩
  case cursor =>
    have hend : s.lat.bytes.toNat ≤ s.periodSize * (k % s.cycleTicks) + s.periodSize ↔
        k % s.cycleTicks + 1 = s.cycleTicks := cycle_end_iff hP hB (Nat.mod_lt k hn)
    rw [hu.cursor, toNat_nextCursor, hsize, h.lat, h.cursor, succ_mod_eq_ite hn]
    simp only [hend]
    split
    · rfl
    · rw [Nat.mul_succ]
  case periodCount => rw [hu.periodCount, h.periodCount, BitVec.add_assoc, BitVec.ofNat_add]; rfl
  case notified => rw [hu.notified, h.notified, Nat.add_assoc]
  case written =>
    intro hk
    have hfits : periodFits t = true ↔ k < s.cycleFills := by
      rw [periodFits_iff, hsize, h.lat, h.cursor, Nat.mod_eq_of_lt hk]
      exact cycle_fits_iff hP
    rw [hu.written, h.written (Nat.le_of_succ_le hk), h.lat]
    simp only [hfits]
    split
    case isTrue hfill => rw [Nat.min_eq_left hfill.le, Nat.min_eq_left hfill, Nat.mul_succ, Nat.add_assoc]
    case isFalse hskip => rw [Nat.min_eq_right (by omega), Nat.min_eq_right (by omega), Nat.add_zero]

/-- From cursor 0 a stream ticks for ever. -/
theorem State.Streaming.run {s : State} (h : s.Streaming) (hzero : s.cursor = 0) (k : Nat) :
    ∃ t, runTicks k s = .next t ∧ t.Streaming ∧ State.TicksPassed k s t := by
  induction k with
  | zero => exact ⟨s, rfl, h, .zero hzero⟩
  | succ k ih =>
    obtain ⟨t, hrun, hstream, hpassed⟩ := ih
    obtain ⟨u, htick, hu⟩ := hstream.tick
    exact ⟨u, (runTicks_succ_of_run hrun).trans htick, hstream.after_tick hu, hpassed.succ h hu⟩

/-- Settles O31: `State.TicksPassed` after `k` ticks. -/
theorem cursorSequence : Obligations.CursorSequence := by
  intro s k harmed hlaunchable hbacked hzero hregion
  have hstream : s.Streaming := ⟨harmed, hlaunchable, hbacked, by simpa [hzero] using hregion⟩
  obtain ⟨t, hrun, -, hpassed⟩ := hstream.run hzero k
  exact ⟨t, hrun, hpassed.cursor, hpassed.periodCount, hpassed.notified, hpassed.sched.trans harmed, hpassed.lat,
    hpassed.cfg⟩

/-- Settles O33: `State.TicksPassed` after one whole cycle, of whose ticks `B div P` fill. -/
theorem fillsPerCycle : Obligations.FillsPerCycle := by
  intro s harmed hlaunchable hbacked hzero hregion
  have hstream : s.Streaming := ⟨harmed, hlaunchable, hbacked, by simpa [hzero] using hregion⟩
  obtain ⟨t, hrun, -, hpassed⟩ := hstream.run hzero s.cycleTicks
  have hfills : s.cycleFills ≤ s.cycleTicks := div_le_cycle (Nat.mul_pos (by decide) hlaunchable.period_pos) hregion
  refine ⟨t, hrun, BitVec.eq_of_toNat_eq ?_, ?_⟩
  · rw [hpassed.cursor, Nat.mod_self]
    rfl
  · rw [hpassed.written le_rfl, Nat.min_eq_right hfills]
    rfl

/-! ### POSITION -/

/-- Settles O53: a frame-aligned cursor is four times its quotient, which needs no more bits than the cursor. -/
theorem positionIsExact : Obligations.PositionIsExact := by
  intro s hinv
  have haligned := hinv.cursor_aligned
  have hlt := s.cursor.isLt
  rw [readReg, frameBytes, BitVec.toNat_ofNat, Nat.mod_eq_of_lt (by omega)]
  omega

end Sys2Proof.Machine
end

section
/-! SUPPORT. The scheduler's two commands (R120, R121) as words and as changes of the state: O23 and O24. -/

namespace Sys2Proof.Machine

/-! ### ARM -/

/-- ARM in ARMED or HALTED, or with a parameter that fails R120's checks. -/
theorem execArm_invalid {s : State} (arg : Word)
    (h : (s.sched = .armed ∨ s.sched = .halted) ∨ ¬ armParamsOk s.cfg s.regs = true) :
    execArm arg s = .next (s.setResult .invalidCommand) := by
  unfold execArm
  by_cases hbusy : s.sched = .armed ∨ s.sched = .halted
  · exact if_pos hbusy
  · rw [if_neg hbusy]
    exact if_pos (by simpa using h.resolve_left hbusy)

theorem execArm_latches {s : State} (arg : Word) (hsched : s.sched = .idle ∨ s.sched = .stopped)
    (hok : armParamsOk s.cfg s.regs = true) (hbacked : regionBacked s.cfg s.regs = true) :
    execArm arg s = .next ((armStream s).setResult .ok) := by
  have hfree := sched_idle_or_stopped_iff.mp hsched
  simp [execArm, hfree, hok, hbacked, finishCommand]

/-- Settles O23: the word is ARM's encoding; the three results are the branches on the scheduler's state, on R120's
checks and on the backed region (R54). -/
theorem armLatchesOrRefuses : Obligations.ArmLatchesOrRefuses := by
  intro arg s
  refine ⟨fun w => (decode_host_eq_ok_iff (i := .arm arg) rfl).trans commandWord_eq_iff_masked,
    fun hsched hrate hperiod hbase hinside => ?_, fun hbad => ?_⟩
  · have hok : armParamsOk s.cfg s.regs = true := (armParamsOk_iff _ _).mpr ⟨hrate, hperiod, hbase, hinside⟩
    refine ⟨execArm_latches arg hsched hok, fun hnot => ?_⟩
    exact (execArm_refused_iff (arg := arg)).mpr ⟨⟨hsched, hok, hnot⟩, rfl⟩
  · refine execArm_invalid arg ?_
    rw [armParamsOk_iff]
    obtain harmed | hhalted | hrate | hperiod | hbase | hinside := hbad
    · exact .inl (.inl harmed)
    · exact .inl (.inr hhalted)
    · exact .inr fun ⟨h, _⟩ => h hrate
    · exact .inr fun ⟨_, h, _⟩ => h hperiod
    · exact .inr fun ⟨_, _, h, _⟩ => hbase h
    · exact .inr fun ⟨_, _, _, h⟩ => Nat.not_le.mpr hinside h

/-! ### STOP -/

theorem execStop_of_armed {s : State} (arg : Word) (h : s.sched = .armed) :
    execStop arg s = .next ((s.setSched .stopped).setResult .ok) := by
  rw [execStop, if_pos h, finishCommand]

theorem execStop_of_not_armed {s : State} (arg : Word) (h : s.sched ≠ .armed) :
    execStop arg s = .next (s.setResult .ok) := by
  rw [execStop, if_neg h, finishCommand]

theorem not_armed_of_execStop {arg : Word} {s t : State} (ht : execStop arg s = .next t) : t.sched ≠ .armed := by
  obtain ⟨-, rfl⟩ | ⟨hnot, rfl⟩ := execStop_next ht
  · simp
  · exact hnot

/-- Settles O24: the word is STOP's encoding; the two results are the branches on ARMED; neither leaves the block
ARMED. -/
theorem stopStopsOnlyArmed : Obligations.StopStopsOnlyArmed := fun arg _ =>
  ⟨fun _ => (decode_host_eq_ok_iff (i := .stop arg) rfl).trans commandWord_eq_iff_masked, execStop_of_armed arg,
    execStop_of_not_armed arg, fun _ ht => execTick_of_not_armed (not_armed_of_execStop (arg := arg) ht)⟩

end Sys2Proof.Machine
end

section
/-! SUPPORT. What a step does to the scheduler's state and its latched parameters (R122), said once: nothing, or one of
the four named transitions. Then O35, which is that case split, and O45: none of the four happens to a stream that is
not asked to stop, so it goes on notifying (R123). -/

namespace Sys2Proof.Machine

/-! ### The scheduler through a step -/

/-- `t` has the scheduler's state and the latched parameters of `s`. -/
def State.SameStream (s t : State) : Prop := t.sched = s.sched ∧ t.lat = s.lat

/-- The two transitions that a command makes (R122). -/
def State.CommandTransition (i : Instr) (s t : State) : Prop :=
  ((∃ arg, i = .arm arg) ∧ (s.sched = .idle ∨ s.sched = .stopped) ∧ t.sched = .armed) ∨
  ((∃ arg, i = .stop arg) ∧ s.sched = .armed ∧ t.sched = .stopped)

/-- The four transitions of R122 and R180. -/
def State.Transition (s t : State) : Prop :=
  ((s.sched = .idle ∨ s.sched = .stopped) ∧ t.sched = .armed ∧ ∃ arg, s.RunsCommand (.arm arg)) ∨
  (s.sched = .armed ∧ t.sched = .stopped ∧ ∃ arg, s.RunsCommand (.stop arg)) ∨
  (s.sched = .armed ∧ t.sched = .halted ∧ s.RunsTick ∧ ¬ (s.cursor.toNat < s.lat.bytes.toNat)) ∨
  (t.sched = .idle ∧ s.RunsReset)

theorem execTick_stream {s t : State} (ht : execTick s = .next t) :
    s.SameStream t ∨ (s.sched = .armed ∧ t.sched = .halted ∧ ¬ (s.cursor.toNat < s.lat.bytes.toNat)) := by
  obtain ⟨-, rfl⟩ | ⟨harmed, -, ⟨houtside, rfl⟩ | ⟨-, -, rfl⟩ | ⟨-, -, -, rfl⟩⟩ := execTick_next ht
  · exact .inl ⟨rfl, rfl⟩
  · exact .inr ⟨harmed, rfl, by simp [← cursorInRegion_iff, houtside]⟩
  · exact .inl ⟨rfl, rfl⟩
  · exact .inl ⟨mix_sched _ _ _ s, mix_lat _ _ _ s⟩

theorem exec_stream {i : Instr} (hi : i ≠ .tick) {s t : State} (ht : exec i s = .next t) :
    s.SameStream t ∨ State.CommandTransition i s t := by
  cases i with
  | addOsc arg => obtain ⟨-, rfl⟩ | ⟨-, rfl⟩ := execAddOsc_next ht <;> exact .inl ⟨rfl, rfl⟩
  | removeFreq arg => obtain rfl := execRemoveFreq_next ht; exact .inl ⟨rfl, rfl⟩
  | arm arg =>
    obtain rfl | ⟨hfree, -, -, rfl⟩ := execArm_next (arg := arg) ht
    · exact .inl ⟨rfl, rfl⟩
    · exact .inr (.inl ⟨⟨arg, rfl⟩, hfree, rfl⟩)
  | stop arg =>
    obtain ⟨harmed, rfl⟩ | ⟨-, rfl⟩ := execStop_next (arg := arg) ht
    · exact .inr (.inr ⟨⟨arg, rfl⟩, harmed, rfl⟩)
    · exact .inl ⟨rfl, rfl⟩
  | tick => exact absurd rfl hi

theorem hostAccess_stream {m : Nat} {a : Access} {s t : State} (ht : hostAccess m a s = .next t) :
    s.SameStream t ∨ ∃ w i, a = .wr64 (s.cfg.hostAddress cmdOffset) w ∧ decode .host w = .ok i ∧
      State.CommandTransition i s t := by
  obtain ⟨r, rfl⟩ | ⟨p, rfl⟩ | ⟨w, u, ha, hu, rfl⟩ := hostAccess_next ht
  · exact .inl ⟨rfl, rfl⟩
  · exact .inl ⟨rfl, rfl⟩
  · obtain ⟨-, rfl⟩ | ⟨i, hd, hexec⟩ := runCommand_next hu
    · exact .inl ⟨rfl, rfl⟩
    · obtain hsame | htransition := exec_stream (fun h => decode_host_ne_tick w (h ▸ hd)) hexec
      · exact .inl hsame
      · exact .inr ⟨w, i, ha, hd, htransition⟩

/-- Everything a step can do to the scheduler's state and the latched parameters. -/
theorem step_stream {s t : State} (ht : step s = .next t) : s.SameStream t ∨ s.Transition t := by
  obtain ⟨-, -, rfl⟩ | ⟨hin, -, htick⟩ | ⟨i, rest, hin, hrun⟩ := step_next ht
  · exact .inl ⟨rfl, rfl⟩
  · refine (execTick_stream htick).imp_right fun ⟨harmed, hhalted, houtside⟩ => ?_
    exact .inr (.inr (.inl ⟨harmed, hhalted, .inl ⟨hin, harmed⟩, houtside⟩))
  · cases i with
    | host m a =>
      obtain hsame | ⟨w, i, rfl, hd, htransition⟩ := hostAccess_stream hrun
      · exact .inl hsame
      obtain ⟨⟨arg, rfl⟩, hfree, harmed⟩ | ⟨⟨arg, rfl⟩, harmed, hstopped⟩ := htransition
      · exact .inr (.inl ⟨hfree, harmed, arg, m, w, rest, hin, hd⟩)
      · exact .inr (.inr (.inl ⟨harmed, hstopped, arg, m, w, rest, hin, hd⟩))
    | timer =>
      refine (execTick_stream (s := s.setInputs rest) hrun).imp_right fun ⟨harmed, hhalted, houtside⟩ => ?_
      exact .inr (.inr (.inl ⟨harmed, hhalted, .inr ⟨rest, hin⟩, houtside⟩))
    | consumer addr n =>
      obtain rfl := consumerRead_next hrun
      exact .inl ⟨rfl, rfl⟩
    | reset =>
      obtain rfl : resetBlock (s.setInputs rest) = t := Host.Outcome.next.inj hrun
      exact .inr (.inr (.inr (.inr ⟨rfl, rest, hin⟩)))

/-- Settles O35: a step that changes `S.state` is no `State.SameStream`, so one of the four transitions. -/
theorem schedulerTransitions : Obligations.SchedulerTransitions := by
  intro s t ht hne
  exact (step_stream ht).resolve_left fun ⟨hsame, _⟩ => hne hsame

/-! ### A stream that is not asked to stop -/

/-- The block streams, nothing stops its run, and neither STOP nor reset is to come. -/
structure State.Playing (s : State) : Prop where
  unstoppable : s.Unstoppable
  armed : s.sched = .armed
  region_pos : 0 < s.lat.bytes.toNat
  no_reset : .reset ∉ s.inputs
  no_stop : ∀ i ∈ s.inputs, ¬ i.IsCommand s.cfg fun j => ∃ a, j = .stop a

theorem State.Playing.streaming {s : State} (h : s.Playing) : s.Streaming where
  armed := h.armed
  launchable := h.unstoppable.inv.armed_params h.armed
  region_backed := h.unstoppable.inv.armed_backed h.armed
  cursor_inside := by
    have hpos := h.region_pos
    obtain hinside | hzero := h.unstoppable.inv.armed_cursor h.armed
    · exact hinside
    · omega

/-- None of R122's transitions happens: each needs a state, an input or a cursor that a playing block has not. -/
theorem State.Playing.sameStream {s t : State} (h : s.Playing) (ht : step s = .next t) : s.SameStream t := by
  refine (step_stream ht).resolve_right ?_
  rintro (⟨hfree, -⟩ | ⟨-, -, arg, m, w, rest, hin, hd⟩ | ⟨-, -, -, houtside⟩ | ⟨-, rest, hin⟩)
  · simp [h.armed] at hfree
  · exact h.no_stop _ (by rw [hin]; exact List.mem_cons_self) ⟨m, w, _, rfl, hd, arg, rfl⟩
  · exact houtside h.streaming.cursor_inside
  · exact h.no_reset (by rw [hin]; exact List.mem_cons_self)

theorem State.Playing.after_step {s t : State} (h : s.Playing) (ht : step s = .next t) : t.Playing := by
  obtain ⟨hsched, hlat⟩ := h.sameStream ht
  obtain ⟨hcfg, hinputs⟩ := step_cfg_inputs ht
  refine ⟨h.unstoppable.after_step ht, hsched.trans h.armed, hlat ▸ h.region_pos, ?_, ?_⟩
  · rw [hinputs]
    exact fun hreset => h.no_reset (List.mem_of_mem_tail hreset)
  · rw [hcfg, hinputs]
    exact fun i hi => h.no_stop i (List.mem_of_mem_tail hi)

/-- Without a reset the history only grows. -/
theorem notifications_le_of_step {s t : State} (hreset : .reset ∉ s.inputs) (ht : step s = .next t) :
    notifications s.history ≤ notifications t.history := by
  obtain ⟨es, hhistory, -⟩ := step_recordsWrites hreset ht
  rw [hhistory, notifications_append]
  exact Nat.le_add_right _ _

/-- With no input left every step is a tick, which notifies (R123). -/
theorem State.Playing.run_pending {s : State} (h : s.Playing) (hin : s.inputs = []) (k : Nat) :
    ∃ t, runSteps k s = .next t ∧ t.Playing ∧ notifications t.history = notifications s.history + k := by
  induction k generalizing s with
  | zero => exact ⟨s, rfl, h, rfl⟩
  | succ k ih =>
    obtain ⟨u, htick, hpassed⟩ := h.streaming.tick
    have hstep : step s = .next u := (step_of_no_input hin).trans htick
    have hnone : u.inputs = [] := by rw [(step_cfg_inputs hstep).2, hin, List.tail_nil]
    obtain ⟨t, hrun, ht, hnotified⟩ := ih (h.after_step hstep) hnone
    refine ⟨t, (runSteps_succ_of_step hstep).trans hrun, ht, ?_⟩
    rw [hnotified, hpassed.notified]
    omega

/-- The inputs' steps first, then one notification a step. -/
theorem State.Playing.run {s : State} (h : s.Playing) (k : Nat) :
    ∃ t, runSteps (s.inputs.length + k) s = .next t ∧ t.Playing ∧
      notifications s.history + k ≤ notifications t.history := by
  induction hin : s.inputs generalizing s with
  | nil =>
    obtain ⟨t, hrun, ht, hnotified⟩ := h.run_pending hin k
    exact ⟨t, by rwa [List.length_nil, Nat.zero_add], ht, hnotified.ge⟩
  | cons i rest ih =>
    obtain ⟨u, hstep⟩ := h.unstoppable.exists_step
    have hrest : u.inputs = rest := by rw [(step_cfg_inputs hstep).2, hin, List.tail_cons]
    obtain ⟨t, hrun, ht, hnotified⟩ := ih (h.after_step hstep) hrest
    have hgrows := notifications_le_of_step h.no_reset hstep
    exact ⟨t, by rw [List.length_cons, Nat.succ_add, runSteps_succ_of_step hstep, hrun], ht, by omega⟩

/-- Settles O45: a playing block goes on playing (`State.Playing.after_step`), by induction on its inputs, and then
ticks at every step. -/
theorem armedBlockKeepsNotifying : Obligations.ArmedBlockKeepsNotifying := by
  intro k s hinv harmed hregion hbacked hreads hreset hstop
  have hplaying : s.Playing := ⟨⟨hinv, hbacked, hreads⟩, harmed, hregion, hreset, hstop⟩
  obtain ⟨t, hrun, ht, hnotified⟩ := hplaying.run k
  exact ⟨t, hrun, ht.armed, hnotified⟩

end Sys2Proof.Machine
end

section
/-! SUPPORT. The register accesses (44_register_access.md): which register the map has at an offset, what a 32-bit access
of it does, and which accesses are bus errors: O47, O48 and O49. -/

namespace Sys2Proof.Machine

/-! ### The register at an offset

Each of the ten single registers stands at its offset by evaluation; the window and the reserved offsets come after
them. -/

theorem regAt_tableEntry {c : Config} {i : Nat} (hi : i < c.tableCapacity) :
    regAt c (0x40000 + 4 * i) = .tableEntry i := by
  have hentry : (0x40000 + 4 * i - 0x40000) / 4 = i := by omega
  unfold regAt
  iterate 10 rw [if_neg (by omega)]
  rw [hentry, if_pos ⟨Nat.le_add_right _ _, hi⟩]

theorem regAt_reserved {c : Config} {o : Nat} (hsingle : 0x00030 ≤ o)
    (hwindow : 0x40000 ≤ o → c.tableCapacity ≤ (o - 0x40000) / 4) : regAt c o = .reserved o := by
  unfold regAt
  iterate 10 rw [if_neg (by omega)]
  exact if_neg fun ⟨hin, hlt⟩ => Nat.not_lt.mpr (hwindow hin) hlt

/-! ### The value of a register -/

theorem readReg_setInputs (s : State) (l : List Input) (r : Reg) : readReg (s.setInputs l) r = readReg s r := by
  cases r <;> rfl

theorem toNat_running (x : SchedState) : x.running.toNat = if x = .armed then 1 else 0 := by
  cases x <;> rfl

theorem toNat_fatal (x : SchedState) : x.fatal.toNat = if x = .halted then 1 else 0 := by
  cases x <;> rfl

/-- STATUS is the sum of R143, whose flags are those of R12. -/
theorem readReg_status_eq_iff {s : State} {v : Word} :
    readReg s .status = v ↔
      v.toNat = s.result.code.toNat + 4 * s.sched.code.toNat + 16 * (if s.sched = .armed then 1 else 0) +
        32 * (if s.sched = .halted then 1 else 0) := by
  rw [readReg, ← BitVec.toNat_inj, toNat_statusWord, toNat_running, toNat_fatal, eq_comm]

/-- POSITION is the cursor in frames, which needs no more bits than the cursor (R128). -/
theorem readReg_position_eq_iff {s : State} {v : Word} : readReg s .position = v ↔ v.toNat = s.cursor.toNat / 4 := by
  have hlt := s.cursor.isLt
  rw [readReg, frameBytes, ← BitVec.toNat_inj, BitVec.toNat_ofNat, Nat.mod_eq_of_lt (by omega), eq_comm]

/-! ### Reads and writes of 32 bits -/

/-- The offsets that 32-bit accesses reach (R141): 4-aligned, in the block, and not CMD's. -/
abbrev RegisterOffset (o : Nat) : Prop := 8 ≤ o ∧ o ≤ 0x7FFFC ∧ o % 4 = 0

theorem busErrorAt_of_registerOffset {o : Nat} (ho : RegisterOffset o) : busErrorAt 32 o = false := by
  obtain ⟨hlow, hhigh, halign⟩ := ho
  rw [Bool.eq_false_iff, ne_eq, busErrorAt_iff]
  omega

theorem step_host_of_not_busError {s : State} {m o : Nat} {a : Access} {rest : List Input}
    (hin : s.inputs = .host m a :: rest) (ha : a.addr = s.cfg.regBase + o) (hbus : busErrorAt a.bits o = false) :
    step s = accessAt m a o (s.setInputs rest) := by
  rw [step_host hin ha, hbus, if_neg Bool.false_ne_true]

/-- A 32-bit read responds with the register at its offset (R143). -/
theorem step_read32 {s : State} {m o : Nat} {v : Word} {r : Reg} {rest : List Input}
    (hin : s.inputs = .host m (.rd32 (s.cfg.regBase + o)) :: rest) (ho : RegisterOffset o)
    (hreg : regAt s.cfg o = r) (hv : readReg s r = v) :
    step s = .next ((s.setInputs rest).respond m (.okayValue32 v)) := by
  rw [step_host_of_not_busError hin rfl (busErrorAt_of_registerOffset ho), accessAt, setInputs_cfg, readReg_setInputs,
    hreg, hv]

/-- A 32-bit write does what `writeReg` does of the register at its offset, and responds (R143). -/
theorem step_write32 {s : State} {m o : Nat} {v : Word} {rest : List Input}
    (hin : s.inputs = .host m (.wr32 (s.cfg.regBase + o) v) :: rest) (ho : RegisterOffset o) :
    step s = .next ((writeReg (s.setInputs rest) v (regAt s.cfg o)).respond m .okay) := by
  rw [step_host_of_not_busError hin rfl (busErrorAt_of_registerOffset ho), accessAt, setInputs_cfg]

/-- A write at any other offset than the four configuration registers' is ignored (R144, R145): the register there is the
one whose offset that is. -/
theorem writeReg_of_not_configuration (s : State) (v : Word) (c : Config) {o : Nat} (halign : o % 4 = 0)
    (hrate : o ≠ 0x00010) (hperiod : o ≠ 0x00014) (hbytes : o ≠ 0x00018) (hbase : o ≠ 0x0001C) :
    writeReg s v (regAt c o) = s := by
  have ho := offset_regAt c halign
  cases hreg : regAt c o with rw [hreg] at ho
  | sampleRate => exact absurd ho.symm hrate
  | periodFrames => exact absurd ho.symm hperiod
  | bufferBytes => exact absurd ho.symm hbytes
  | bufferBase => exact absurd ho.symm hbase
  | _ => rfl

/-- Settles O48: `step_read32` at each register of the map. -/
theorem readsReturnRegisters : Obligations.ReadsReturnRegisters := by
  intro s m o v rest hin hreg
  obtain ⟨rfl, hv⟩ | ⟨rfl, rfl⟩ | ⟨rfl, rfl⟩ | ⟨rfl, rfl⟩ | ⟨rfl, rfl⟩ | ⟨rfl, rfl⟩ | ⟨rfl, rfl⟩ | ⟨rfl, hv⟩ | ⟨rfl, rfl⟩ |
    ⟨rfl, rfl⟩ | ⟨i, rfl, hi, hhigh, rfl⟩ | ⟨hlow, hhigh, halign, rfl⟩ | ⟨i, rfl, hi, hhigh, rfl⟩ := hreg
  · exact step_read32 (r := .status) hin (by decide) rfl (readReg_status_eq_iff.mpr hv)
  · exact step_read32 (r := .tableCount) hin (by decide) rfl rfl
  · exact step_read32 (r := .sampleRate) hin (by decide) rfl rfl
  · exact step_read32 (r := .periodFrames) hin (by decide) rfl rfl
  · exact step_read32 (r := .bufferBytes) hin (by decide) rfl rfl
  · exact step_read32 (r := .bufferBase) hin (by decide) rfl rfl
  · exact step_read32 (r := .cursor) hin (by decide) rfl rfl
  · exact step_read32 (r := .position) hin (by decide) rfl (readReg_position_eq_iff.mpr hv)
  · exact step_read32 (r := .periodCount) hin (by decide) rfl rfl
  · exact step_read32 (r := .tableCap) hin (by decide) rfl rfl
  · exact step_read32 hin (by omega) (regAt_tableEntry hi) List.getD_eq_getElem?_getD
  · exact step_read32 hin (by omega) (regAt_reserved hlow (by omega)) rfl
  · exact step_read32 hin (by omega) (regAt_reserved (by omega) (by omega)) rfl

/-- Settles O49: `step_write32` at each configuration register, and `writeReg_of_not_configuration` elsewhere. -/
theorem writesSetConfigurationOnly : Obligations.WritesSetConfigurationOnly := by
  intro s m o v p rest hin hreg
  obtain ⟨rfl, rfl⟩ | ⟨rfl, rfl⟩ | ⟨rfl, rfl⟩ | ⟨rfl, rfl⟩ |
    ⟨hlow, hhigh, halign, hrate, hperiod, hbytes, hbase, rfl⟩ := hreg
  · exact step_write32 hin (by decide)
  · exact step_write32 hin (by decide)
  · exact step_write32 hin (by decide)
  · exact step_write32 hin (by decide)
  · rw [step_write32 hin ⟨hlow, hhigh, halign⟩,
      writeReg_of_not_configuration _ v s.cfg halign hrate hperiod hbytes hbase]
    rfl

/-! ### Bus errors -/

/-- An access below `REG_BASE` has no offset (log 13). -/
theorem step_host_below {s : State} {m : Nat} {a : Access} {rest : List Input} (hin : s.inputs = .host m a :: rest)
    (hlt : a.addr < s.cfg.regBase) : step s = .next ((s.setInputs rest).respond m .busError) := by
  have hoffset : regOffset (s.setInputs rest).cfg a.addr = none := regOffset_of_lt hlt
  rw [step_of_input hin]
  simp only [runInput, hostAccess, hoffset]

/-- The next step gives one response to master `m` that is no bus error, or refuses the ARM it runs (R54, log 6). -/
def State.AnswersOrRefuses (s : State) (m : Nat) : Prop :=
  (∃ t r, step s = .next t ∧ t.outputs = s.outputs ++ [.response m r] ∧ r ≠ .busError) ∨
    ((∃ arg, s.RunsCommand (.arm arg)) ∧ step s = .refused .regionNotBacked)

theorem busErrorAt_otherWidth {b x o : Nat} (hwf : (Access.otherWidth b x).wf = true) : busErrorAt b o = true :=
  (busErrorAt_iff b o).mpr (.inl (by simpa [Access.wf] using hwf))

theorem eq_zero_of_busErrorAt_64 {o : Nat} (h : busErrorAt 64 o = false) : o = 0 := by
  by_contra hne
  exact Bool.eq_false_iff.mp h ((busErrorAt_iff 64 o).mpr (.inr (.inr (.inl ⟨rfl, hne⟩))))

/-- A CMD write responds with a result, be its word a command or an illegal one, unless its ARM is refused (R142). -/
theorem cmdWrite_answersOrRefuses {s : State} {m : Nat} {w : CmdWord} {rest : List Input}
    (hin : s.inputs = .host m (.wr64 s.cfg.regBase w) :: rest) : s.AnswersOrRefuses m := by
  by_cases hlegal : ∃ i, decode .host w = .ok i
  · obtain ⟨i, hd⟩ := hlegal
    obtain ⟨t, -, hstep, -, -⟩ | ⟨⟨arg, rfl⟩, -, hstep⟩ := stepRunsCommand s m w rest i hin hd
    · exact .inl ⟨_, .okayResult t.result, hstep, rfl, nofun⟩
    · exact .inr ⟨⟨arg, m, w, rest, hin, hd⟩, hstep⟩
  · exact .inl ⟨_, .okayResult .invalidCommand, step_illegal_command hin hlegal, rfl, nofun⟩

/-- An access of an admitted form that is none of R141's cases is answered as its form asks (R142, R143). -/
theorem admitted_answersOrRefuses {s : State} {m o : Nat} {a : Access} {rest : List Input}
    (hin : s.inputs = .host m a :: rest) (ha : a.addr = s.cfg.regBase + o) (hwf : a.wf = true)
    (hbus : busErrorAt a.bits o = false) : s.AnswersOrRefuses m := by
  have hstep := step_host_of_not_busError hin ha hbus
  cases a with
  | rd32 x => exact .inl ⟨_, .okayValue32 _, hstep, rfl, nofun⟩
  | wr32 x v =>
    rw [accessAt, writeReg_eq] at hstep
    exact .inl ⟨_, .okay, hstep, rfl, nofun⟩
  | rd64 x => exact .inl ⟨_, .okayValue64 0, hstep, rfl, nofun⟩
  | otherWidth b x => exact absurd (busErrorAt_otherWidth hwf) (Bool.eq_false_iff.mp hbus)
  | wr64 x w =>
    obtain rfl : o = 0 := eq_zero_of_busErrorAt_64 hbus
    obtain rfl : x = s.cfg.regBase := ha
    exact cmdWrite_answersOrRefuses hin

/-- Settles O47: below `REG_BASE` there is no offset; at an offset `busErrorAt` decides, and what it lets through is
answered (`admitted_answersOrRefuses`). -/
theorem busErrorsExactly : Obligations.BusErrorsExactly := by
  intro s m a rest hin
  refine ⟨step_host_below hin, fun o ha => ⟨fun hcase => ?_, fun hwf hnone => ?_⟩⟩
  · exact (step_host hin ha).trans (if_pos ((busErrorAt_iff _ _).mpr hcase))
  · exact admitted_answersOrRefuses hin ha hwf (Bool.eq_false_iff.mpr (mt (busErrorAt_iff _ _).mp hnone))

end Sys2Proof.Machine
end

section
/-! SUPPORT. The fatal path (R162) and HALTED: the TICK that takes it, O26; and, from what a step does to the stream, to
memory and history and to the cursor, that nothing but reset leaves HALTED (R167), O41. -/

namespace Sys2Proof.Machine

/-! ### The fatal path -/

/-- Settles O26: a cursor that is not below the region fails a TICK's check (`execTick_of_outside`); STATUS is R143's
sum. -/
theorem fatalTickHaltsOnly : Obligations.FatalTickHaltsOnly := by
  intro s harmed hbacked hcursor
  have houtside : cursorInRegion s = false := by rwa [← Bool.not_eq_true, cursorInRegion_iff]
  exact ⟨execTick_of_outside harmed hbacked houtside, toNat_statusWord _⟩

/-! ### The cursor and the period count through a step -/

/-- `t` has the cursor and the period count of `s`. -/
def State.SamePosition (s t : State) : Prop := t.cursor = s.cursor ∧ t.periodCount = s.periodCount

theorem execTick_position {s t : State} (ht : execTick s = .next t) : s.SamePosition t ∨ s.sched = .armed := by
  obtain ⟨-, rfl⟩ | ⟨harmed, -⟩ := execTick_next ht
  · exact .inl ⟨rfl, rfl⟩
  · exact .inr harmed

/-- The one command that sets the cursor and the count is an accepted ARM (R120). -/
theorem exec_position {i : Instr} (hi : i ≠ .tick) {s t : State} (ht : exec i s = .next t) :
    s.SamePosition t ∨ t.sched = .armed := by
  cases i with
  | addOsc arg => obtain ⟨-, rfl⟩ | ⟨-, rfl⟩ := execAddOsc_next ht <;> exact .inl ⟨rfl, rfl⟩
  | removeFreq arg => obtain rfl := execRemoveFreq_next ht; exact .inl ⟨rfl, rfl⟩
  | arm arg =>
    obtain rfl | ⟨-, -, -, rfl⟩ := execArm_next (arg := arg) ht
    · exact .inl ⟨rfl, rfl⟩
    · exact .inr rfl
  | stop arg => obtain ⟨-, rfl⟩ | ⟨-, rfl⟩ := execStop_next (arg := arg) ht <;> exact .inl ⟨rfl, rfl⟩
  | tick => exact absurd rfl hi

theorem hostAccess_position {m : Nat} {a : Access} {s t : State} (ht : hostAccess m a s = .next t) :
    s.SamePosition t ∨ t.sched = .armed := by
  obtain ⟨r, rfl⟩ | ⟨p, rfl⟩ | ⟨w, u, -, hu, rfl⟩ := hostAccess_next ht
  · exact .inl ⟨rfl, rfl⟩
  · exact .inl ⟨rfl, rfl⟩
  · obtain ⟨-, rfl⟩ | ⟨i, hd, hexec⟩ := runCommand_next hu
    · exact .inl ⟨rfl, rfl⟩
    · have hsame := exec_position (fun h => decode_host_ne_tick w (h ▸ hd)) hexec
      exact hsame

/-- A step moves the cursor or the count only while the block is ARMED, as it becomes ARMED, or by reset (R24, R120,
R126, R180). -/
theorem step_position {s t : State} (ht : step s = .next t) :
    s.SamePosition t ∨ s.sched = .armed ∨ t.sched = .armed ∨ s.RunsReset := by
  obtain ⟨-, -, rfl⟩ | ⟨-, harmed, -⟩ | ⟨i, rest, hin, hrun⟩ := step_next ht
  · exact .inl ⟨rfl, rfl⟩
  · exact .inr (.inl harmed)
  · cases i with
    | host m a => exact (hostAccess_position (s := s.setInputs rest) hrun).imp_right fun h => .inr (.inl h)
    | timer => exact (execTick_position (s := s.setInputs rest) hrun).imp_right .inl
    | consumer addr n =>
      obtain rfl := consumerRead_next hrun
      exact .inl ⟨rfl, rfl⟩
    | reset => exact .inr (.inr (.inr ⟨rest, hin⟩))

/-! ### HALTED is kept -/

/-- `t` is HALTED with no reset to come, and has what `s` has written, notified, latched and counted. -/
structure State.HaltedWith (s t : State) : Prop where
  halted : t.sched = .halted
  no_reset : .reset ∉ t.inputs
  same_mem_history : s.SameMemHistory t
  same_position : s.SamePosition t
  same_lat : t.lat = s.lat

theorem not_runsReset_of_not_mem {s : State} (h : .reset ∉ s.inputs) : ¬ s.RunsReset := by
  rintro ⟨rest, hin⟩
  exact h (by rw [hin]; exact List.mem_cons_self)

/-- None of R122's transitions leaves HALTED; reset does (R167). -/
theorem sameStream_of_halted {s t : State} (hhalted : s.sched = .halted) (hreset : .reset ∉ s.inputs)
    (ht : step s = .next t) : s.SameStream t := by
  refine (step_stream ht).resolve_right ?_
  rintro (⟨hfree, -⟩ | ⟨harmed, -⟩ | ⟨harmed, -⟩ | ⟨-, hruns⟩)
  · simp [hhalted] at hfree
  · simp [hhalted] at harmed
  · simp [hhalted] at harmed
  · exact not_runsReset_of_not_mem hreset hruns

/-- A HALTED block writes nothing and records no event (R162). -/
theorem sameMemHistory_of_halted {s t : State} (hhalted : s.sched = .halted) (hreset : .reset ∉ s.inputs)
    (ht : step s = .next t) : s.SameMemHistory t := by
  obtain hsame | ⟨hruns, -⟩ | ⟨-, harmed, -⟩ := step_mem_history ht
  · exact hsame
  · exact absurd hruns (not_runsReset_of_not_mem hreset)
  · simp [hhalted] at harmed

theorem samePosition_of_halted {s t : State} (hhalted : s.sched = .halted) (hreset : .reset ∉ s.inputs)
    (ht : step s = .next t) : s.SamePosition t := by
  obtain ⟨hsched, -⟩ := sameStream_of_halted hhalted hreset ht
  obtain hsame | harmed | harmed | hruns := step_position ht
  · exact hsame
  · simp [hhalted] at harmed
  · simp [hsched, hhalted] at harmed
  · exact absurd hruns (not_runsReset_of_not_mem hreset)

theorem State.HaltedWith.after_step {s t u : State} (h : s.HaltedWith t) (ht : step t = .next u) : s.HaltedWith u := by
  obtain ⟨hsched, hlat⟩ := sameStream_of_halted h.halted h.no_reset ht
  obtain ⟨hmem, hhistory⟩ := sameMemHistory_of_halted h.halted h.no_reset ht
  obtain ⟨hcursor, hcount⟩ := samePosition_of_halted h.halted h.no_reset ht
  obtain ⟨hmem₀, hhistory₀⟩ := h.same_mem_history
  obtain ⟨hcursor₀, hcount₀⟩ := h.same_position
  refine ⟨hsched.trans h.halted, ?_, ⟨hmem.trans hmem₀, hhistory.trans hhistory₀⟩,
    ⟨hcursor.trans hcursor₀, hcount.trans hcount₀⟩, hlat.trans h.same_lat⟩
  rw [(step_cfg_inputs ht).2]
  exact fun hreset => h.no_reset (List.mem_of_mem_tail hreset)

/-- Settles O41: a HALTED block has what it has, and every step keeps that (`State.HaltedWith.after_step`). -/
theorem haltedIsSticky : Obligations.HaltedIsSticky := by
  intro k s t hhalted hreset hrun
  have hstart : s.HaltedWith s := ⟨hhalted, hreset, ⟨rfl, rfl⟩, ⟨rfl, rfl⟩, rfl⟩
  have hend : s.HaltedWith t := runSteps_keeps (fun _ _ => State.HaltedWith.after_step) hstart hrun
  obtain ⟨hmem, hhistory⟩ := hend.same_mem_history
  obtain ⟨hcursor, hcount⟩ := hend.same_position
  exact ⟨hend.halted, hmem, hhistory, hcursor, hcount, hend.same_lat⟩

end Sys2Proof.Machine
end

section
/-! SUPPORT. Renaming the masters' tags (`State.retag`) commutes with each part of a step (R172, R146; log 10), from MIX
and the commands up to the step itself, O46. -/

namespace Sys2Proof.Machine

section
variable (f : Nat → Nat)

/-! ### Updates -/

theorem andThen_andThen (o : Host.Outcome State Fault Refusal) (g h : State → State) :
    andThen (andThen o g) h = andThen o fun s => h (g s) := by
  cases o <;> rfl

theorem retag_setInputs (s : State) (l : List Input) :
    (s.setInputs l).retag f = (s.retag f).setInputs (l.map (Input.retag f)) := rfl

theorem retag_output (s : State) (o : Output) : (s.output o).retag f = (s.retag f).output (o.retag f) := by
  simp only [State.retag, State.output, List.map_append, List.map_cons, List.map_nil]

/-- The one place where a step uses a tag: the response goes to the renamed master (R140). -/
theorem retag_respond (s : State) (m : Nat) (r : Response) : (s.respond m r).retag f = (s.retag f).respond (f m) r :=
  retag_output f s (.response m r)

/-! ### Instructions -/

theorem mix_retag (r n : Nat) : ∀ (a : Nat) (s : State), mix a r n (s.retag f) = (mix a r n s).retag f := by
  induction n with
  | zero => intro a s; rfl
  | succ n ih => intro a s; exact ih (a + frameBytes) (mixFrame a r s)

theorem fillPeriod_retag (s : State) : fillPeriod (s.retag f) = andThen (fillPeriod s) (State.retag f) := by
  by_cases hrate : s.lat.rate = 0
  · simp only [fillPeriod, State.retag, hrate, if_true, andThen]
  · rw [fillPeriod_of_rate hrate, fillPeriod_of_rate (s := s.retag f) hrate]
    exact congrArg _ (mix_retag f _ _ _ s)

/-- A TICK's checks read no tag (R125), and its fill is `fillPeriod_retag`. -/
theorem execTick_retag (s : State) : execTick (s.retag f) = andThen (execTick s) (State.retag f) := by
  by_cases harmed : s.sched = .armed
  case neg => rw [execTick_of_not_armed harmed, execTick_of_not_armed (s := s.retag f) harmed, andThen]
  cases hbacked : regionBacked s.cfg s.lat with
  | false =>
    rw [execTick_of_not_backed harmed hbacked, execTick_of_not_backed (s := s.retag f) harmed hbacked, andThen]
  | true =>
    cases hcursor : cursorInRegion s with
    | false =>
      rw [execTick_of_outside harmed hbacked hcursor, execTick_of_outside (s := s.retag f) harmed hbacked hcursor]
      rfl
    | true =>
      cases hfits : periodFits s with
      | false =>
        rw [execTick_of_not_fits harmed hbacked hcursor hfits,
          execTick_of_not_fits (s := s.retag f) harmed hbacked hcursor hfits]
        rfl
      | true =>
        rw [execTick_of_fits harmed hbacked hcursor hfits,
          execTick_of_fits (s := s.retag f) harmed hbacked hcursor hfits, fillPeriod_retag, andThen_andThen,
          andThen_andThen]
        rfl

theorem execAddOsc_retag (arg : Word) (s : State) :
    execAddOsc arg (s.retag f) = andThen (execAddOsc arg s) (State.retag f) := by
  by_cases hfull : s.table.length = s.cfg.tableCapacity
  · rw [execAddOsc_full arg hfull, execAddOsc_full (s := s.retag f) arg hfull]
    rfl
  · rw [execAddOsc_room arg hfull, execAddOsc_room (s := s.retag f) arg hfull]
    rfl

/-- ARM reads the scheduler's state, the registers and the parameters (R120), none of them with a tag. -/
theorem execArm_retag (arg : Word) (s : State) :
    execArm arg (s.retag f) = andThen (execArm arg s) (State.retag f) := by
  by_cases hinvalid : (s.sched = .armed ∨ s.sched = .halted) ∨ ¬ armParamsOk s.cfg s.regs = true
  · rw [execArm_invalid arg hinvalid, execArm_invalid (s := s.retag f) arg hinvalid]
    rfl
  obtain ⟨hbusy, hok⟩ := not_or.mp hinvalid
  have hfree := sched_idle_or_stopped_iff.mpr hbusy
  have hok := not_not.mp hok
  cases hbacked : regionBacked s.cfg s.regs with
  | false =>
    rw [execArm_refused_iff.mpr ⟨⟨hfree, hok, hbacked⟩, rfl⟩]
    exact (execArm_refused_iff (s := s.retag f)).mpr ⟨⟨hfree, hok, hbacked⟩, rfl⟩
  | true =>
    rw [execArm_latches arg hfree hok hbacked, execArm_latches (s := s.retag f) arg hfree hok hbacked]
    rfl

theorem execStop_retag (arg : Word) (s : State) :
    execStop arg (s.retag f) = andThen (execStop arg s) (State.retag f) := by
  by_cases harmed : s.sched = .armed
  · rw [execStop_of_armed arg harmed, execStop_of_armed (s := s.retag f) arg harmed]
    rfl
  · rw [execStop_of_not_armed arg harmed, execStop_of_not_armed (s := s.retag f) arg harmed]
    rfl

/-- No instruction reads or writes a tag. -/
theorem exec_retag (i : Instr) (s : State) : exec i (s.retag f) = andThen (exec i s) (State.retag f) := by
  cases i with
  | addOsc arg => exact execAddOsc_retag f arg s
  | removeFreq arg => rfl
  | arm arg => exact execArm_retag f arg s
  | stop arg => exact execStop_retag f arg s
  | tick => exact execTick_retag f s

/-! ### Inputs -/

theorem runCommand_retag (w : CmdWord) (s : State) :
    runCommand w (s.retag f) = andThen (runCommand w s) (State.retag f) := by
  cases hd : decode .host w with
  | ok i => simpa only [runCommand, hd] using exec_retag f i s
  | error e => simp only [runCommand, hd]; rfl

theorem readReg_retag (s : State) (r : Reg) : readReg (s.retag f) r = readReg s r := by
  cases r <;> rfl

theorem writeReg_retag (s : State) (v : Word) (r : Reg) : writeReg (s.retag f) v r = (writeReg s v r).retag f := by
  cases r <;> rfl

theorem accessAt_retag (m : Nat) (a : Access) (o : Nat) (s : State) :
    accessAt (f m) a o (s.retag f) = andThen (accessAt m a o s) (State.retag f) := by
  cases a with
  | rd32 x => simp only [accessAt, andThen, retag_respond, readReg_retag]; rfl
  | wr32 x v => simp only [accessAt, andThen, retag_respond, writeReg_retag]; rfl
  | rd64 x => simp only [accessAt, andThen, retag_respond]
  | wr64 x w => simp only [accessAt, runCommand_retag, andThen_andThen, retag_respond]; rfl
  | otherWidth b x => simp only [accessAt, andThen, retag_respond]

theorem hostAccess_retag (m : Nat) (a : Access) (s : State) :
    hostAccess (f m) a (s.retag f) = andThen (hostAccess m a s) (State.retag f) := by
  have hcfg : (s.retag f).cfg = s.cfg := rfl
  unfold hostAccess
  rw [hcfg]
  split
  · rw [andThen, retag_respond]
  · split
    · rw [andThen, retag_respond]
    · exact accessAt_retag f m a _ s

theorem memRead_retag (s : State) (addr n : Nat) : (s.retag f).memRead addr n = s.memRead addr n := by
  induction n generalizing addr with
  | zero => rfl
  | succ n ih => rw [State.memRead, State.memRead, ih]; rfl

theorem consumerRead_retag (addr n : Nat) (s : State) :
    consumerRead addr n (s.retag f) = andThen (consumerRead addr n s) (State.retag f) := by
  have hcfg : (s.retag f).cfg = s.cfg := rfl
  unfold consumerRead
  rw [hcfg]
  split
  · rfl
  · rw [memRead_retag, andThen, retag_output]; rfl

theorem runInput_retag (i : Input) (s : State) :
    runInput (i.retag f) (s.retag f) = andThen (runInput i s) (State.retag f) := by
  cases i with
  | host m a => exact hostAccess_retag f m a s
  | timer => exact execTick_retag f s
  | consumer addr n => exact consumerRead_retag f addr n s
  | reset => rfl

/-! ### The step -/

theorem step_retag (s : State) : step (s.retag f) = andThen (step s) (State.retag f) := by
  cases hin : s.inputs with
  | nil =>
    have hin' : (s.retag f).inputs = [] := by simp [State.retag, hin]
    rw [step_of_no_input hin, step_of_no_input hin', execTick_retag]
  | cons i rest =>
    have hin' : (s.retag f).inputs = i.retag f :: rest.map (Input.retag f) := by simp [State.retag, hin]
    rw [step_of_input hin, step_of_input hin', ← runInput_retag, retag_setInputs]

end

/-- Settles O46: `step_retag`, a case split over the next input, each case by the lemma of the part of a step it runs. -/
theorem masterTagsAreInvisible : Obligations.MasterTagsAreInvisible :=
  fun f s => step_retag f s

end Sys2Proof.Machine
end

section
/-! SUPPORT. Reset (R180), the hazard between a TICK and the configuration registers (R183), and the two ends of a run
(R191): O43, O54, O30, O58, O59 and O60. -/

namespace Sys2Proof.Machine

/-! ### Reset -/

theorem fatalOutcome_iff (s : State) : s.FatalOutcome ↔ s.sched = .halted := by
  unfold State.FatalOutcome
  cases s.sched <;> decide

theorem not_fatalOutcome_of_idle_or_stopped {s : State} (h : s.sched = .idle ∨ s.sched = .stopped) :
    ¬ s.FatalOutcome := by
  rw [fatalOutcome_iff]
  exact fun hhalted => sched_idle_or_stopped_iff.mp h (.inr hhalted)

/-- After reset the memory and the table are empty, the cursor is 0, and nothing is ARMED. -/
theorem resetWith_inv {c : Config} (h : c.wf = true) : (State.resetWith c).Inv where
  cfg_wf := h
  mem_wf := rfl
  mem_inside := rfl
  table_fits := Nat.zero_le _
  cursor_aligned := rfl
  armed_params := nofun
  armed_cursor := nofun
  armed_backed := nofun

/-- Settles O43: the invariant field by field, and IDLE is no fatal outcome. -/
theorem resetIsLaunch : Obligations.ResetIsLaunch :=
  fun _ hwf => ⟨resetWith_inv hwf, not_fatalOutcome_of_idle_or_stopped (.inl rfl)⟩

/-- Settles O54: the step is `resetBlock` on the state without that input, whose fields are R180's row by row. -/
theorem resetValues : Obligations.ResetValues := by
  intro s rest hin
  exact ⟨resetBlock (s.setInputs rest), step_of_input hin,
    rfl, rfl, rfl, rfl, rfl, rfl, rfl, rfl, rfl, rfl, rfl, rfl, rfl, rfl⟩

/-! ### The configuration registers and a TICK -/

section
variable (p : StreamParams)

theorem mix_setRegs (r n : Nat) (a : Nat) (s : State) : mix a r n (s.setRegs p) = (mix a r n s).setRegs p := by
  induction n generalizing a s with
  | zero => rfl
  | succ n ih => exact ih (a + frameBytes) (mixFrame a r s)

/-- A fill takes its rate and its period from the latched parameters (R23, R125). -/
theorem fillPeriod_setRegs (s : State) : fillPeriod (s.setRegs p) = andThen (fillPeriod s) (·.setRegs p) := by
  by_cases hrate : s.lat.rate = 0
  · simp only [fillPeriod, setRegs_lat, hrate, if_true, andThen]
  · rw [fillPeriod_of_rate hrate, fillPeriod_of_rate (s := s.setRegs p) hrate]
    exact congrArg _ (mix_setRegs p _ _ _ s)

/-- The checks of a TICK read the latched parameters alone (R23, R125): both sides take the same branch. -/
theorem execTick_setRegs (s : State) : execTick (s.setRegs p) = andThen (execTick s) (·.setRegs p) := by
  have hcursor : cursorInRegion (s.setRegs p) = cursorInRegion s := rfl
  have hfits : periodFits (s.setRegs p) = periodFits s := rfl
  simp only [execTick, setRegs_sched, setRegs_cfg, setRegs_lat, hcursor, hfits]
  split
  · rfl
  split
  · rfl
  split
  · rfl
  split
  · rfl
  · rw [fillPeriod_setRegs, andThen_andThen, andThen_andThen]
    rfl

end

/-- Settles O30: `execTick_setRegs`, branch by branch of a TICK, the fill by induction on its frames. -/
theorem configWritesCommuteWithTick : Obligations.ConfigWritesCommuteWithTick :=
  fun s p => execTick_setRegs p s

/-! ### A run that has ended stays ended -/

theorem State.AccessesDone.after_step {s t : State} (h : s.AccessesDone) (ht : step s = .next t) :
    t.AccessesDone := by
  unfold State.AccessesDone
  rw [(step_cfg_inputs ht).2]
  exact fun i hi => h i (List.mem_of_mem_tail hi)

theorem not_accessesDone_of_host {s : State} {m : Nat} {a : Access} {rest : List Input}
    (hin : s.inputs = .host m a :: rest) : ¬ s.AccessesDone := by
  intro hdone
  have hhost := hdone _ (by rw [hin]; exact List.mem_cons_self)
  simp [Input.isHost] at hhost

theorem State.AccessesDone.not_runsCommand {s : State} (h : s.AccessesDone) (i : Instr) : ¬ s.RunsCommand i :=
  fun ⟨_, _, _, hin, _⟩ => not_accessesDone_of_host hin h

theorem State.Ended.not_armed {s : State} (h : s.Ended) : s.sched ≠ .armed :=
  fun harmed => sched_idle_or_stopped_iff.mp h.2 (.inl harmed)

/-- Of R122's transitions only a reset can still happen, and it goes to IDLE. -/
theorem State.Ended.after_step {s t : State} (h : s.Ended) (ht : step s = .next t) : t.Ended := by
  obtain ⟨hdone, hsched⟩ := h
  refine ⟨hdone.after_step ht, ?_⟩
  obtain ⟨hsame, -⟩ | ⟨-, -, arg, harm⟩ | ⟨-, hstopped, -⟩ | ⟨harmed, -⟩ | ⟨hidle, -⟩ := step_stream ht
  · rwa [hsame]
  · exact absurd harm (hdone.not_runsCommand _)
  · exact .inr hstopped
  · exact absurd harmed (State.Ended.not_armed ⟨hdone, hsched⟩)
  · exact .inl hidle

/-- Only an ARMED tick writes memory (R46). -/
theorem State.Ended.same_mem {s t : State} (h : s.Ended) (ht : step s = .next t) : t.mem = s.mem := by
  obtain ⟨hmem, -⟩ | ⟨-, hmem, -⟩ | ⟨-, harmed, -⟩ := step_mem_history ht
  · exact hmem
  · exact hmem
  · exact absurd harmed h.not_armed

/-- Settles O58: an end and its memory are kept by every step, so by every run. -/
theorem endedStaysEnded : Obligations.EndedStaysEnded := by
  intro k s t hended hrun
  have hkeeps : ∀ u v, (u.Ended ∧ u.mem = s.mem) → step u = .next v → (v.Ended ∧ v.mem = s.mem) :=
    fun u v ⟨hu, hmem⟩ hstep => ⟨hu.after_step hstep, (hu.same_mem hstep).trans hmem⟩
  obtain ⟨hend, hmem⟩ := runSteps_keeps hkeeps ⟨hended, rfl⟩ hrun
  exact ⟨hend, not_fatalOutcome_of_idle_or_stopped hend.2, hmem⟩

/-! ### STOP as the last access -/

/-- The state after STOP's response (R121, R142). -/
structure State.StoppedAfter (s t : State) (m : Nat) (rest : List Input) : Prop where
  sched : t.sched = .idle ∨ t.sched = .stopped
  inputs : t.inputs = rest
  outputs : t.outputs = s.outputs ++ [.response m (.okayResult .ok)]

/-- STOP always answers OK, and leaves every state but HALTED in IDLE or STOPPED (R121). -/
theorem step_stop_answers {s : State} {m : Nat} {arg : Word} {rest : List Input}
    (hin : s.inputs = .host m (.wr64 (s.cfg.hostAddress cmdOffset) (encode (.stop arg))) :: rest)
    (hnot : s.sched ≠ .halted) : ∃ t, step s = .next t ∧ s.StoppedAfter t m rest := by
  rw [step_command hin (decode_host_stop arg)]
  by_cases harmed : s.sched = .armed
  · have hstop := execStop_of_armed (s := s.setInputs rest) arg harmed
    exact ⟨_, congrArg (andThen · _) hstop, .inr rfl, rfl, rfl⟩
  · have hstop := execStop_of_not_armed (s := s.setInputs rest) arg harmed
    exact ⟨_, congrArg (andThen · _) hstop, sched_idle_or_stopped_iff.mpr (not_or.mpr ⟨harmed, hnot⟩), rfl, rfl⟩

/-- The step of the last host access answers its last response: before it that access was still to come. -/
theorem lastResponded_of_step {s t : State} (hbefore : ¬ s.AccessesDone) (hstep : step s = .next t)
    (hdone : t.AccessesDone) : s.LastResponded t := by
  refine ⟨1, (runSteps_succ_of_step hstep).trans rfl, hdone, fun j u hj hrun => ?_⟩
  obtain rfl : j = 0 := Nat.lt_one_iff.mp hj
  obtain rfl : s = u := Host.Outcome.next.inj hrun
  exact hbefore

/-- Settles O59: STOP's step answers IDLE or STOPPED (`step_stop_answers`), and it is the run's first without a host
access to come. -/
theorem stopEndsTheRun : Obligations.StopEndsTheRun := by
  intro s m arg rest hin hrest hnot
  obtain ⟨t, hstep, hafter⟩ := step_stop_answers hin hnot
  have hdone : t.AccessesDone := by rwa [State.AccessesDone, hafter.inputs]
  exact ⟨t, hstep, ⟨hdone, hafter.sched⟩, lastResponded_of_step (not_accessesDone_of_host hin) hstep hdone,
    hafter.outputs⟩

/-! ### Ticks after the last access -/

/-- The invariant gives a stream over a region that is not empty: its cursor is inside, or at 0. -/
theorem State.Inv.streaming {s : State} (h : s.Inv) (harmed : s.sched = .armed) (hregion : 0 < s.lat.bytes.toNat) :
    s.Streaming where
  armed := harmed
  launchable := h.armed_params harmed
  region_backed := h.armed_backed harmed
  cursor_inside := by
    obtain hinside | hzero := h.armed_cursor harmed
    · exact hinside
    · omega

theorem countTicks_succ_of_step {k : Nat} {s u : State} (h : step s = .next u) :
    countTicks (k + 1) s = s.nextIsTick.toNat + countTicks k u := by
  simp only [countTicks, h]

/-- With no input left the steps of a stream are its ticks, every one of them counted (R123; log 1). -/
theorem State.Streaming.run_pending {s : State} (h : s.Streaming) (hin : s.inputs = []) (n : Nat) :
    ∃ t, runTicks n s = .next t ∧ runSteps n s = .next t ∧ countTicks n s = n ∧ t.sched = .armed := by
  induction n generalizing s with
  | zero => exact ⟨s, rfl, rfl, rfl, h.armed⟩
  | succ n ih =>
    obtain ⟨u, htick, hpassed⟩ := h.tick
    have hstep : step s = .next u := (step_of_no_input hin).trans htick
    have hcounted : s.nextIsTick = true := (nextIsTick_iff s).mpr (.inl ⟨hin, h.armed⟩)
    have hnone : u.inputs = [] := (execTick_keeps_cfg_inputs htick).2.trans hin
    obtain ⟨t, hticks, hsteps, hcount, harmed⟩ := ih (h.after_tick hpassed) hnone
    refine ⟨t, (runTicks_succ_of_tick htick).trans hticks, (runSteps_succ_of_step hstep).trans hsteps, ?_, harmed⟩
    rw [countTicks_succ_of_step hstep, hcounted, hcount, Bool.toNat_true, Nat.add_comm]

theorem lastResponded_self {s : State} (hdone : s.AccessesDone) : s.LastResponded s :=
  ⟨0, rfl, hdone, fun _ _ hj => absurd hj (Nat.not_lt_zero _)⟩

/-- Settles O60: the invariant makes the block stream, and a stream with no input left ticks at every step
(`State.Streaming.run_pending`). -/
theorem endsAfterEveryTickCount : Obligations.EndsAfterEveryTickCount := by
  intro n s hinv harmed hregion hin
  obtain ⟨t, hticks, hsteps, hcount, hend⟩ := (hinv.streaming harmed hregion).run_pending hin n
  have hdone : s.AccessesDone := by simp [State.AccessesDone, hin]
  exact ⟨t, hticks, ⟨s, n, lastResponded_self hdone, hsteps, hcount, by simp [fatalOutcome_iff, hend]⟩, hend⟩

end Sys2Proof.Machine
end
